-- ==== Sys2Proof/Word.lean ====
section
/-! DEFINITION. The 16-bit word (10_state R10) and the four words of one instruction slot (30_encoding R45). -/

namespace Sys2Proof

/-- Every data item the machine stores or moves is a 16-bit word, read as unsigned (R8, R10; decision D3, log 6). -/
abbrev Word := BitVec 16

/-- One instruction slot: the instruction-store word and the operand triplet (R45). -/
structure Slot where
  op : Word
  a : Word
  b : Word
  c : Word
deriving DecidableEq, Repr

end Sys2Proof
end

