-- ==== Sys2Proof/Config.lean ====
section
/-! DEFINITION. What is fixed when a machine is constructed (00_scope R4): the opcode dictionary and the six sizes,
with the dictionary's own failures (60_exceptions R117, R120). The functions over them are in Decode.lean. Nothing of
this machine is left open at run time (40_engine_cycle R69), so there is no free value. -/

namespace Sys2Proof

/-- The closed set of 26 symbolic opcodes, in the spec's order (R46). `ret` is `RETURN`: `return` is a Lean keyword. -/
inductive Opcode where
  | nop | add | sub | mult | div | mod | or | xor | nor | nand | and | not | shiftl | shiftr
  | load | hpush | hpop | callr | ret | rstore | rcopy | icopy | jmp | jmpz | print | halt
deriving DecidableEq, Repr

/-- The opcode dictionary OPMAP as its accepted entries, in list order (R49). Codes are natural numbers of any size. -/
abbrev OpMap := List (Opcode × Nat)

/-- Each symbolic opcode has at most one code and each code at most one symbolic opcode (R49: an injective partial map). -/
abbrev OpMap.valid (m : OpMap) : Prop :=
  (m.map Prod.fst).Nodup ∧ (m.map Prod.snd).Nodup

/-- Why a dictionary cannot be built: E0 `ConfigurationError(kind, key)` (R49, R116, R117). -/
inductive ConfigError where
  /-- The text is none of the 26 names. -/
  | unknownSymbol (text : String)
  /-- An earlier entry has the same symbolic opcode. -/
  | duplicateSymbol (s : Opcode)
  /-- An earlier entry has the same numeric code. -/
  | duplicateCode (code : Nat)
deriving DecidableEq, Repr

/-- E7 `LookupError(key)`, naming the missing key (R50, R51, R120). -/
inductive LookupError where
  | numericKey (k : Nat)
  | symbolicKey (s : Opcode)
deriving DecidableEq, Repr

/-- The six region sizes in 16-bit words; any natural number is legal (R4, decision D25). -/
structure Sizes where
  istoreLen : Nat
  ostoreLen : Nat
  ramLen : Nat
  nregs : Nat
  dstackLen : Nat
  cstackLen : Nat
deriving DecidableEq, Repr

/-- The parameters of a machine instance, constant for its life (R4, R142). -/
structure Config extends Sizes where
  opmap : OpMap
deriving DecidableEq, Repr

/-- The reference sizes REFCFG of the spec's examples (R4, decision D19, log 1). -/
def refSizes : Sizes :=
  { istoreLen := 256, ostoreLen := 768, ramLen := 256, nregs := 32, dstackLen := 256, cstackLen := 256 }

end Sys2Proof
end

