-- ==== Sys2Proof/Syntax.lean ====
section
/-! DEFINITION. The instructions: one constructor per row of spec/opcode_table.json, with the operands R47 gives it and
no others. A triplet word an instruction does not use is not part of it (R48, decision D24, log 5). -/

namespace Sys2Proof

/-- An instruction. Every operand is one whole triplet word, used as an unsigned number (R48). -/
inductive Instr where
  /-- R101 -/
  | nop
  /-- R76 -/
  | add (src1 src2 dst : Word)
  /-- R77 -/
  | sub (src1 src2 dst : Word)
  /-- R78 -/
  | mult (src1 src2 dst : Word)
  /-- R79 -/
  | div (src1 src2 dst : Word)
  /-- R80 -/
  | mod (src1 src2 dst : Word)
  /-- R81 -/
  | or (src1 src2 dst : Word)
  /-- R82 -/
  | xor (src1 src2 dst : Word)
  /-- R83 -/
  | nor (src1 src2 dst : Word)
  /-- R84 -/
  | nand (src1 src2 dst : Word)
  /-- R85 -/
  | and (src1 src2 dst : Word)
  /-- R91 -/
  | not (src dst : Word)
  /-- R86: value, count, destination -/
  | shiftl (src1 src2 dst : Word)
  /-- R87: value, count, destination -/
  | shiftr (src1 src2 dst : Word)
  /-- R93 -/
  | load (imm dst : Word)
  /-- R110 -/
  | hpush
  /-- R111 -/
  | hpop
  /-- R112 -/
  | callr
  /-- R113: RETURN -/
  | ret
  /-- R94 -/
  | rstore (srcReg ramAddr : Word)
  /-- R95 -/
  | rcopy (ramAddr dstReg : Word)
  /-- R96 -/
  | icopy (romAddr dstReg : Word)
  /-- R99 -/
  | jmp (target : Word)
  /-- R100 -/
  | jmpz (target : Word)
  /-- R104 -/
  | print (ramAddr length : Word)
  /-- R114 -/
  | halt
deriving DecidableEq, Repr

end Sys2Proof
end

