-- ==== Sys2Proof/Decode.lean ====
section
/-! DEFINITION. The opcode dictionary (30_encoding R49 to R52), the decoder, total on any slot and any dictionary,
rejecting by naming the missing key, and after it the encoder, both from the operand table of R47. -/

namespace Sys2Proof

/-! The dictionary -/

/-- The 26 symbolic opcodes in the order of R46. -/
def Opcode.all : List Opcode :=
  [.nop, .add, .sub, .mult, .div, .mod, .or, .xor, .nor, .nand, .and, .not, .shiftl] ++
  [.shiftr, .load, .hpush, .hpop, .callr, .ret, .rstore, .rcopy, .icopy, .jmp, .jmpz, .print, .halt]

/-- The name an Opcode Entry spells a symbolic opcode with (R46). -/
def Opcode.name : Opcode → String
  | .nop => "NOP"
  | .add => "ADD"
  | .sub => "SUB"
  | .mult => "MULT"
  | .div => "DIV"
  | .mod => "MOD"
  | .or => "OR"
  | .xor => "XOR"
  | .nor => "NOR"
  | .nand => "NAND"
  | .and => "AND"
  | .not => "NOT"
  | .shiftl => "SHIFTL"
  | .shiftr => "SHIFTR"
  | .load => "LOAD"
  | .hpush => "HPUSH"
  | .hpop => "HPOP"
  | .callr => "CALLR"
  | .ret => "RETURN"
  | .rstore => "RSTORE"
  | .rcopy => "RCOPY"
  | .icopy => "ICOPY"
  | .jmp => "JMP"
  | .jmpz => "JMPZ"
  | .print => "PRINT"
  | .halt => "HALT"

/-- Exact, case-sensitive matching of an entry's text (R49, decision D15, log 14). -/
def Opcode.ofName (text : String) : Option Opcode :=
  Opcode.all.find? (fun s => s.name == text)

/-- `build`, with the entries accepted so far: examined in list order and, for each entry, unknown name before
duplicate name before duplicate code (R49). -/
def buildFrom (done : OpMap) : List (String × Nat) → Except ConfigError OpMap
  | [] => .ok done
  | (text, code) :: rest =>
    match Opcode.ofName text with
    | none => .error (.unknownSymbol text)
    | some s =>
      if done.any (fun e => e.1 == s) then .error (.duplicateSymbol s)
      else if done.any (fun e => e.2 == code) then .error (.duplicateCode code)
      else buildFrom (done ++ [(s, code)]) rest

/-- Build the dictionary from the loader's entry list (R49). -/
def build (entries : List (String × Nat)) : Except ConfigError OpMap :=
  buildFrom [] entries

/-- The numeric code of a symbolic opcode, if it has an entry. -/
def OpMap.codeOf (m : OpMap) (s : Opcode) : Option Nat :=
  (m.find? (fun e => e.1 == s)).map Prod.snd

/-- The symbolic opcode of a numeric code, if an entry has it. The whole number is compared, no bit is masked (R50). -/
def OpMap.symOf (m : OpMap) (k : Nat) : Option Opcode :=
  (m.find? (fun e => e.2 == k)).map Prod.fst

/-- `symbolic_to_numeric` (R51). -/
def symbolicToNumeric (m : OpMap) (s : Opcode) : Except LookupError Nat :=
  match m.codeOf s with
  | some k => .ok k
  | none => .error (.symbolicKey s)

/-- `numeric_to_symbolic` (R50). -/
def numericToSymbolic (m : OpMap) (k : Nat) : Except LookupError Opcode :=
  match m.symOf k with
  | some s => .ok s
  | none => .error (.numericKey k)

/-- The entries of the reference map REFMAP: the 26 opcodes numbered 0 to 25 in the order of R46 (R52, decision D1). -/
def refmap : OpMap :=
  [(.nop, 0), (.add, 1), (.sub, 2), (.mult, 3), (.div, 4), (.mod, 5), (.or, 6), (.xor, 7)] ++
  [(.nor, 8), (.nand, 9), (.and, 10), (.not, 11), (.shiftl, 12), (.shiftr, 13), (.load, 14), (.hpush, 15), (.hpop, 16)] ++
  [(.callr, 17), (.ret, 18), (.rstore, 19), (.rcopy, 20), (.icopy, 21), (.jmp, 22), (.jmpz, 23), (.print, 24), (.halt, 25)]

/-! Slots and images -/

/-- The 64-bit instruction image `OP:A:B:C`, with OP in bits 63 to 48 and C in bits 15 to 0 (R45). -/
def Slot.image (sl : Slot) : Nat :=
  sl.op.toNat * 2 ^ 48 + sl.a.toNat * 2 ^ 32 + sl.b.toNat * 2 ^ 16 + sl.c.toNat

/-- The slot an instruction image stands for (R45). -/
def Slot.ofImage (i : Nat) : Slot :=
  { op := BitVec.ofNat 16 (i / 2 ^ 48), a := BitVec.ofNat 16 (i / 2 ^ 32),
    b := BitVec.ofNat 16 (i / 2 ^ 16), c := BitVec.ofNat 16 i }

/-! Decoding -/

/-- The instruction a decoded opcode and its triplet spell: operands taken in the order of the handler's list, the rest
of the triplet ignored (R47, R48, decisions D2 and D24, log 5). -/
def Instr.ofTriplet (s : Opcode) (a b c : Word) : Instr :=
  match s with
  | .nop => .nop
  | .add => .add a b c
  | .sub => .sub a b c
  | .mult => .mult a b c
  | .div => .div a b c
  | .mod => .mod a b c
  | .or => .or a b c
  | .xor => .xor a b c
  | .nor => .nor a b c
  | .nand => .nand a b c
  | .and => .and a b c
  | .not => .not a b
  | .shiftl => .shiftl a b c
  | .shiftr => .shiftr a b c
  | .load => .load a b
  | .hpush => .hpush
  | .hpop => .hpop
  | .callr => .callr
  | .ret => .ret
  | .rstore => .rstore a b
  | .rcopy => .rcopy a b
  | .icopy => .icopy a b
  | .jmp => .jmp a
  | .jmpz => .jmpz a
  | .print => .print a b
  | .halt => .halt

/-- Decode a slot under a dictionary (R47, R50). -/
def decode (m : OpMap) (sl : Slot) : Except LookupError Instr :=
  match numericToSymbolic m sl.op.toNat with
  | .ok s => .ok (Instr.ofTriplet s sl.a sl.b sl.c)
  | .error e => .error e

/-- The instruction read from an image numbered as spec/opcode_table.json numbers it (R45, R59: bit 0 is the lowest bit
of C, the opcode word is bits 63 to 48), under REFMAP; bits from `nbits` on are 0 (log 15). -/
def decodeTableWord (nbits w : Nat) : Option Instr :=
  match decode refmap (Slot.ofImage (w % 2 ^ nbits)) with
  | .ok i => some i
  | .error _ => none

/-! Encoding -/

/-- The symbolic opcode of an instruction. -/
def Instr.opcode : Instr → Opcode
  | .nop => .nop
  | .add _ _ _ => .add
  | .sub _ _ _ => .sub
  | .mult _ _ _ => .mult
  | .div _ _ _ => .div
  | .mod _ _ _ => .mod
  | .or _ _ _ => .or
  | .xor _ _ _ => .xor
  | .nor _ _ _ => .nor
  | .nand _ _ _ => .nand
  | .and _ _ _ => .and
  | .not _ _ => .not
  | .shiftl _ _ _ => .shiftl
  | .shiftr _ _ _ => .shiftr
  | .load _ _ => .load
  | .hpush => .hpush
  | .hpop => .hpop
  | .callr => .callr
  | .ret => .ret
  | .rstore _ _ => .rstore
  | .rcopy _ _ => .rcopy
  | .icopy _ _ => .icopy
  | .jmp _ => .jmp
  | .jmpz _ => .jmpz
  | .print _ _ => .print
  | .halt => .halt

/-- The operand triplet `(A, B, C)` of an instruction; a word the instruction does not use is written 0 (R47, R56). -/
def Instr.triplet : Instr → Word × Word × Word
  | .nop => (0, 0, 0)
  | .add a b c => (a, b, c)
  | .sub a b c => (a, b, c)
  | .mult a b c => (a, b, c)
  | .div a b c => (a, b, c)
  | .mod a b c => (a, b, c)
  | .or a b c => (a, b, c)
  | .xor a b c => (a, b, c)
  | .nor a b c => (a, b, c)
  | .nand a b c => (a, b, c)
  | .and a b c => (a, b, c)
  | .not a b => (a, b, 0)
  | .shiftl a b c => (a, b, c)
  | .shiftr a b c => (a, b, c)
  | .load a b => (a, b, 0)
  | .hpush => (0, 0, 0)
  | .hpop => (0, 0, 0)
  | .callr => (0, 0, 0)
  | .ret => (0, 0, 0)
  | .rstore a b => (a, b, 0)
  | .rcopy a b => (a, b, 0)
  | .icopy a b => (a, b, 0)
  | .jmp a => (a, 0, 0)
  | .jmpz a => (a, 0, 0)
  | .print a b => (a, b, 0)
  | .halt => (0, 0, 0)

/-- The slot that spells an instruction under a dictionary (R51, R56); none where its opcode has no entry, or has a code
that no instruction-store word can hold (R49, U19). -/
def encode (m : OpMap) (i : Instr) : Option Slot :=
  match m.codeOf i.opcode with
  | some k =>
    if k < 65536 then
      some { op := BitVec.ofNat 16 k, a := i.triplet.1, b := i.triplet.2.1, c := i.triplet.2.2 }
    else none
  | none => none

end Sys2Proof
end

