-- ==== Sys2Proof/Machine/State.lean ====
section
/-! DEFINITION. The machine state (10_state), the errors a cycle can return (60_exceptions R116), and the state after
reset (R24). -/

namespace Sys2Proof.Machine

/-- A word-addressed region (20_memory R30) as the list of its non-zero words: indices strictly rising, no entry equal to
`Mem.unlisted`. The machine has no bytes (R32), so a cell is an index and a word (log 4). Its size is in `Config`. -/
abbrev Mem := List (Nat × Word)

/-- What an unlisted word of any region reads as: 0 (R24, decisions D10 and D26, log 3). -/
abbrev Mem.unlisted : Word := 0

/-- The regions an instruction can name by an operand word (R116, R123). -/
inductive Space where
  | reg | ram | ostore
deriving DecidableEq, Repr

/-- The kinds of arithmetic error (R124). -/
inductive ArithKind where
  | divideByZero
  | moduloByZero
  /-- The shift count, 16 or more (decision D4, log 7). -/
  | shiftCount (n : Nat)
deriving DecidableEq, Repr

/-- The cause an `ExecutionError` wraps (R122). -/
inductive Cause where
  /-- R123 -/
  | outOfRangeAccess (space : Space) (index : Nat)
  /-- R124 -/
  | arithmeticError (kind : ArithKind)
deriving DecidableEq, Repr

/-- The errors a cycle can return, E1 to E6 of R116. -/
inductive Error where
  /-- E1: `OutOfRangeFetch(ISTORE, pc)` (R62, R118). -/
  | outOfRangeFetchIstore (pc : Nat)
  /-- E2: the instruction word has no entry (R63, R119). -/
  | decodeError (w : Word)
  /-- E3: `OutOfRangeFetch(OSTORE, 3*pc, s)`, with the opcode already decoded (R64, R118). -/
  | outOfRangeFetchOstore (index : Nat) (s : Opcode)
  /-- E4: the opcode is declared and has no handler (R109, R121). -/
  | unimplementedOpcode (s : Opcode)
  /-- E5, E6: a handler failed; the opcode and the cause (R122). -/
  | executionError (s : Opcode) (cause : Cause)
deriving DecidableEq, Repr

/-- The stage an error is tagged with (R116). -/
inductive Stage where
  | fetch | decode | execute
deriving DecidableEq, Repr

/-- The run status (R21): running from reset until the first failing cycle, then stopped with that error for ever. -/
inductive Status where
  | running
  | stopped (e : Error)
deriving DecidableEq, Repr

/-- Everything the spec gives the machine (table of R24), and the parameters of R4, which no step writes (log 1). -/
structure State where
  /-- OPMAP and the six sizes (R4). -/
  cfg : Config
  /-- Register file (R11). -/
  x : Mem
  /-- Program counter: a slot index, a natural number that never wraps (R12). -/
  pc : Nat
  /-- Zero flag (R13). -/
  zf : Bool
  /-- Branch-taken flag (R14). -/
  bt : Bool
  /-- Data stack pointer (R15). -/
  dsp : Nat
  /-- Call stack pointer (R15). -/
  csp : Nat
  /-- Data stack region (R16). -/
  dstack : Mem
  /-- Call stack region (R16). -/
  cstack : Mem
  /-- Instruction store (R17). -/
  istore : Mem
  /-- Operand store (R18). -/
  ostore : Mem
  /-- Data memory (R19). -/
  ram : Mem
  /-- Output channel OUT, oldest emission first, each emission a list of Unicode scalar values as numbers (R20). -/
  out : List (List Nat)
  /-- Run status (R21). -/
  status : Status
deriving DecidableEq, Repr

/-- Why a step gives no next state. -/
inductive Fault where
  /-- Raised by `step` alone, when a cycle is requested of a stopped machine: no cycle runs, the state stays, and the error
  is the one it stopped with (R21, U13). Safe. -/
  | stopped (e : Error)
deriving DecidableEq, Repr

/-- Why a meaning is refused. -/
inductive Refusal where
  /-- Raised only by an arm of `exec` whose instruction has no meaning yet; there is none. Safe. -/
  | notModelled (mnemonic : String)
deriving DecidableEq, Repr

/-- The state right after reset with no program loaded, under the reference parameters REFMAP and REFCFG (R24, R140,
R141; logs 1 and 3). For other parameters and images see `construct`. -/
def State.reset : State :=
  { cfg := { refSizes with opmap := refmap }, x := [], pc := 0, zf := false, bt := false, dsp := 0, csp := 0,
    dstack := [], cstack := [], istore := [], ostore := [], ram := [], out := [], status := .running }

end Sys2Proof.Machine
end

