-- ==== Sys2Proof/Machine/Ops.lean ====
section
/-! DEFINITION. The named operations over memory, registers and the output channel (the primitives of 00_scope R9), the
engine's part of a cycle around a handler (40_engine_cycle R61, R65, R66), and error entry (60_exceptions R129). -/

namespace Sys2Proof.Machine

/-! Regions as lists in canonical form -/

/-- The word at an index, the unlisted value where nothing is listed. -/
def Mem.read : Mem → Nat → Word
  | [], _ => Mem.unlisted
  | (b, w) :: m, a => if b = a then w else Mem.read m a

/-- Remove what is listed at an index. -/
def Mem.erase (m : Mem) (a : Nat) : Mem :=
  m.filter (fun c => c.1 != a)

/-- List a word before the first higher index. -/
def Mem.insert : Mem → Nat → Word → Mem
  | [], a, v => [(a, v)]
  | (b, w) :: m, a, v => if a < b then (a, v) :: (b, w) :: m else (b, w) :: Mem.insert m a v

/-- Write a word; writing the unlisted value removes the entry, so equal contents are equal lists. -/
def Mem.write (m : Mem) (a : Nat) (v : Word) : Mem :=
  if v = Mem.unlisted then Mem.erase m a else Mem.insert (Mem.erase m a) a v

/-- `n` consecutive words from an index, in order. -/
def Mem.slice (m : Mem) (a : Nat) : Nat → List Word
  | 0 => []
  | n + 1 => Mem.read m a :: Mem.slice m (a + 1) n

/-- Write a list of words from an index on: what the loader does to a store (R143). -/
def Mem.load (m : Mem) (a : Nat) : List Word → Mem
  | [] => m
  | w :: ws => Mem.load (Mem.write m a w) (a + 1) ws

/-- The canonical form: indices strictly rising, no entry equal to the unlisted value. -/
abbrev Mem.wf (m : Mem) : Prop :=
  m.Pairwise (fun c d => c.1 < d.1) ∧ ∀ c ∈ m, c.2 ≠ Mem.unlisted

/-- Canonical, and listing nothing at or above the region's size. -/
abbrev Mem.fits (m : Mem) (len : Nat) : Prop :=
  Mem.wf m ∧ ∀ c ∈ m, c.1 < len

/-! Field updates, one per field that a cycle may write -/

def State.setX (s : State) (m : Mem) : State := { s with x := m }
def State.setPc (s : State) (n : Nat) : State := { s with pc := n }
def State.setZf (s : State) (b : Bool) : State := { s with zf := b }
def State.setBt (s : State) (b : Bool) : State := { s with bt := b }
def State.setRam (s : State) (m : Mem) : State := { s with ram := m }
def State.setOut (s : State) (o : List (List Nat)) : State := { s with out := o }
def State.setStatus (s : State) (st : Status) : State := { s with status := st }

/-! The primitives of R9. Each checks its range in exact arithmetic and raises before it writes (R35). -/

/-- The raw content of register `i`, whatever the register file's size. -/
def State.reg (s : State) (i : Nat) : Word := Mem.read s.x i

/-- `x[i]` (R9, R11). -/
def readReg (i : Nat) (s : State) : Except Cause Word :=
  if i < s.cfg.nregs then .ok (s.reg i) else .error (.outOfRangeAccess .reg i)

/-- `x[i] <- v` (R9, R11). -/
def writeReg (i : Nat) (v : Word) (s : State) : Except Cause State :=
  if i < s.cfg.nregs then .ok (s.setX (Mem.write s.x i v)) else .error (.outOfRangeAccess .reg i)

/-- `MemRead(addr, n)`: the whole range must lie in RAM, and the error names its start (R9, R104). -/
def readRam (addr n : Nat) (s : State) : Except Cause (List Word) :=
  if addr + n ≤ s.cfg.ramLen then .ok (Mem.slice s.ram addr n) else .error (.outOfRangeAccess .ram addr)

/-- `MemRead(addr, 1)` (R95). -/
def readRamWord (addr : Nat) (s : State) : Except Cause Word :=
  if addr < s.cfg.ramLen then .ok (Mem.read s.ram addr) else .error (.outOfRangeAccess .ram addr)

/-- `MemWrite(addr, 1, v)`, the only store width (R9, R94). -/
def writeRamWord (addr : Nat) (v : Word) (s : State) : Except Cause State :=
  if addr < s.cfg.ramLen then .ok (s.setRam (Mem.write s.ram addr v)) else .error (.outOfRangeAccess .ram addr)

/-- `OpRead(addr)`: the operand store read as data, at an absolute word index (R9, R31, R96). -/
def readOstoreWord (addr : Nat) (s : State) : Except Cause Word :=
  if addr < s.cfg.ostoreLen then .ok (Mem.read s.ostore addr) else .error (.outOfRangeAccess .ostore addr)

/-- `emit(t)`: append one emission to OUT (R20). -/
def emit (t : List Nat) (s : State) : State := s.setOut (s.out ++ [t])

/-! Error entry and the cycle around a handler -/

/-- Which stage failed (table of R116). -/
def Error.stage : Error → Stage
  | .outOfRangeFetchIstore _ => .fetch
  | .decodeError _ => .decode
  | .outOfRangeFetchOstore _ _ => .fetch
  | .unimplementedOpcode _ => .execute
  | .executionError _ _ => .execute

/-- The opcode involved, where one is known: none before the decode has succeeded (R116, C15). -/
def Error.opcode : Error → Option Opcode
  | .outOfRangeFetchIstore _ => none
  | .decodeError _ => none
  | .outOfRangeFetchOstore _ s => some s
  | .unimplementedOpcode s => some s
  | .executionError s _ => some s

/-- Error entry (R68, R129): nothing changes but the status, which keeps the error for the caller; `pc` stays at the
failing instruction, no mode, mask, saved register or vector exists. There is no return from an error (R131). -/
def State.raise (s : State) (e : Error) : Host.Outcome State Fault Refusal :=
  .next (s.setStatus (.stopped e))

/-- Step 5 of the cycle: the next slot, unless the handler redirected `pc` (R66). -/
def State.advancePc (s : State) : State :=
  if s.bt then s else s.setPc (s.pc + 1)

/-- A cycle after its operand fetch: `bt` cleared (R61), the handler run (R65), `pc` advanced (R66). A failing handler is
wrapped with its opcode (R122) and commits nothing, the clearing of `bt` included (R68, C2, log 10). -/
def runHandler (op : Opcode) (handler : State → Except Cause State) (s : State) :
    Host.Outcome State Fault Refusal :=
  match handler (s.setBt false) with
  | .ok t => .next t.advancePc
  | .error c => s.raise (.executionError op c)

end Sys2Proof.Machine
end

