-- ==== Sys2Proof/Machine/Operands.lean ====
section
/-! DEFINITION. The operand forms (30_encoding R47, R48): each operand is one whole triplet word, zero-extended. Nothing
is sign-extended, scaled, shifted, split or combined, and every address is the word itself (20_memory R37). -/

namespace Sys2Proof.Machine

/-- A word naming an index: a register, a RAM or operand-store address, a slot, or a count of words (R48). -/
def operandIndex (w : Word) : Nat := w.toNat

/-- A register source (R47 `src`, `src1`, `src2`, `src_reg`). -/
def sourceReg (w : Word) (s : State) : Except Cause Word := readReg (operandIndex w) s

/-- A register destination (R47 `dst`, `dst_reg`). -/
def destReg (w : Word) (v : Word) (s : State) : Except Cause State := writeReg (operandIndex w) v s

/-- The literal of `LOAD`, as it stands (R48, R93). -/
def literal (w : Word) : Word := w

/-- A RAM word read at an absolute address (R37, R95). -/
def ramSource (w : Word) (s : State) : Except Cause Word := readRamWord (operandIndex w) s

/-- A RAM word written at an absolute address (R37, R94). -/
def ramDest (w : Word) (v : Word) (s : State) : Except Cause State := writeRamWord (operandIndex w) v s

/-- An operand-store word read at an absolute index (R31, R96). -/
def ostoreSource (w : Word) (s : State) : Except Cause Word := readOstoreWord (operandIndex w) s

/-- A range of RAM words: start and count, both literal operands (R104). -/
def ramRange (start count : Word) (s : State) : Except Cause (List Word) :=
  readRam (operandIndex start) (operandIndex count) s

/-- A jump target: a slot index, absolute, not multiplied by 3 (R48, R99). -/
def slotTarget (w : Word) : Nat := operandIndex w

end Sys2Proof.Machine
end

