-- ==== Sys2Proof/Machine/Flags.lean ====
section
/-! DEFINITION. The two flags: the zero flag, set from a transform's 16-bit result (10_state R13, 41_binary_transforms
R89), and a redirect of the program counter with its branch-taken mark (R14, R99). No carry, borrow, sign or overflow
flag exists (R88). -/

namespace Sys2Proof.Machine

/-- The zero flag of a result: whether the 16-bit word is 0 (R13). -/
def zeroFlag (r : Word) : Bool := r == 0

/-- Write a transform's result: the destination, then the zero flag from the same word (R75, R90). -/
def writeResult (dst r : Word) (s : State) : Except Cause State := do
  let t ← destReg dst r s
  .ok (t.setZf (zeroFlag r))

/-- Redirect the program counter and mark the branch taken (R99). -/
def redirect (target : Nat) (s : State) : State := (s.setPc target).setBt true

end Sys2Proof.Machine
end

