-- ==== Sys2Proof/Machine/Alu.lean ====
section
/-! DEFINITION. The word functions of the transforms (41_binary_transforms R76 to R87, 42_unary_transforms R91). Each is
pure: its result or its arithmetic error depends on the source words alone (R75). -/

namespace Sys2Proof.Machine

/-- `(a + b) mod 65536` (R76). -/
def aluAdd (a b : Word) : Except Cause Word := .ok (BitVec.ofNat 16 (a.toNat + b.toNat))

/-- `(a - b) mod 65536` (R77). -/
def aluSub (a b : Word) : Except Cause Word := .ok (BitVec.ofInt 16 ((a.toNat : Int) - (b.toNat : Int)))

/-- `(a * b) mod 65536` (R78). -/
def aluMult (a b : Word) : Except Cause Word := .ok (BitVec.ofNat 16 (a.toNat * b.toNat))

/-- Floor of the unsigned quotient; a zero divisor is a fatal error (R79, U1). -/
def aluDiv (a b : Word) : Except Cause Word :=
  if b.toNat = 0 then .error (.arithmeticError .divideByZero) else .ok (BitVec.ofNat 16 (a.toNat / b.toNat))

/-- Unsigned remainder; a zero modulus is a fatal error (R80, U2). -/
def aluMod (a b : Word) : Except Cause Word :=
  if b.toNat = 0 then .error (.arithmeticError .moduloByZero) else .ok (BitVec.ofNat 16 (a.toNat % b.toNat))

/-- R81 -/
def aluOr (a b : Word) : Except Cause Word := .ok (a ||| b)

/-- R82 -/
def aluXor (a b : Word) : Except Cause Word := .ok (a ^^^ b)

/-- Complement of the inclusive or, over 16 bits (R83). -/
def aluNor (a b : Word) : Except Cause Word := .ok (~~~(a ||| b))

/-- Complement of the and, over 16 bits (R84). -/
def aluNand (a b : Word) : Except Cause Word := .ok (~~~(a &&& b))

/-- R85 -/
def aluAnd (a b : Word) : Except Cause Word := .ok (a &&& b)

/-- Logical shift left of `a` by `n` positions; a count of 16 or more is a fatal error (R86, U3, decision D4, log 7). -/
def aluShiftl (a n : Word) : Except Cause Word :=
  if 16 ≤ n.toNat then .error (.arithmeticError (.shiftCount n.toNat))
  else .ok (BitVec.ofNat 16 (a.toNat * 2 ^ n.toNat))

/-- Logical shift right of `a` by `n` positions, zero fill (R87, U3, decisions D3 and D4, logs 6 and 7). -/
def aluShiftr (a n : Word) : Except Cause Word :=
  if 16 ≤ n.toNat then .error (.arithmeticError (.shiftCount n.toNat))
  else .ok (BitVec.ofNat 16 (a.toNat / 2 ^ n.toNat))

/-- Bitwise complement over 16 bits (R91). -/
def aluNot (a : Word) : Except Cause Word := .ok (~~~a)

end Sys2Proof.Machine
end

