-- ==== Sys2Proof/Machine/Binary.lean ====
section
/-! DEFINITION. The twelve binary register transforms (41_binary_transforms R75 to R89). -/

namespace Sys2Proof.Machine

/-- The shape of R75: both sources, the function, then the destination, checked in that order (R128, decision D8). Both
sources are read before the destination is written, so the three may name one register. -/
def binaryTransform (f : Word → Word → Except Cause Word) (src1 src2 dst : Word) (s : State) : Except Cause State := do
  let a ← sourceReg src1 s
  let b ← sourceReg src2 s
  let r ← f a b
  writeResult dst r s

/-- `ADD A, B, C` (R76). -/
def execAdd (src1 src2 dst : Word) (s : State) : Host.Outcome State Fault Refusal :=
  runHandler .add (binaryTransform aluAdd src1 src2 dst) s

/-- `SUB A, B, C` (R77). -/
def execSub (src1 src2 dst : Word) (s : State) : Host.Outcome State Fault Refusal :=
  runHandler .sub (binaryTransform aluSub src1 src2 dst) s

/-- `MULT A, B, C` (R78). -/
def execMult (src1 src2 dst : Word) (s : State) : Host.Outcome State Fault Refusal :=
  runHandler .mult (binaryTransform aluMult src1 src2 dst) s

/-- `DIV A, B, C` (R79). -/
def execDiv (src1 src2 dst : Word) (s : State) : Host.Outcome State Fault Refusal :=
  runHandler .div (binaryTransform aluDiv src1 src2 dst) s

/-- `MOD A, B, C` (R80). -/
def execMod (src1 src2 dst : Word) (s : State) : Host.Outcome State Fault Refusal :=
  runHandler .mod (binaryTransform aluMod src1 src2 dst) s

/-- `OR A, B, C` (R81). -/
def execOr (src1 src2 dst : Word) (s : State) : Host.Outcome State Fault Refusal :=
  runHandler .or (binaryTransform aluOr src1 src2 dst) s

/-- `XOR A, B, C` (R82). -/
def execXor (src1 src2 dst : Word) (s : State) : Host.Outcome State Fault Refusal :=
  runHandler .xor (binaryTransform aluXor src1 src2 dst) s

/-- `NOR A, B, C` (R83). -/
def execNor (src1 src2 dst : Word) (s : State) : Host.Outcome State Fault Refusal :=
  runHandler .nor (binaryTransform aluNor src1 src2 dst) s

/-- `NAND A, B, C` (R84). -/
def execNand (src1 src2 dst : Word) (s : State) : Host.Outcome State Fault Refusal :=
  runHandler .nand (binaryTransform aluNand src1 src2 dst) s

/-- `AND A, B, C` (R85). -/
def execAnd (src1 src2 dst : Word) (s : State) : Host.Outcome State Fault Refusal :=
  runHandler .and (binaryTransform aluAnd src1 src2 dst) s

/-- `SHIFTL A, B, C` (R86). -/
def execShiftl (src1 src2 dst : Word) (s : State) : Host.Outcome State Fault Refusal :=
  runHandler .shiftl (binaryTransform aluShiftl src1 src2 dst) s

/-- `SHIFTR A, B, C` (R87). -/
def execShiftr (src1 src2 dst : Word) (s : State) : Host.Outcome State Fault Refusal :=
  runHandler .shiftr (binaryTransform aluShiftr src1 src2 dst) s

end Sys2Proof.Machine
end

