-- ==== Sys2Proof/Machine/Unary.lean ====
section
/-! DEFINITION. The unary register transform NOT (42_unary_transforms R90, R91). -/

namespace Sys2Proof.Machine

/-- The shape of R90: the source, the function, then the destination, checked in that order (R128). -/
def unaryTransform (g : Word → Except Cause Word) (src dst : Word) (s : State) : Except Cause State := do
  let a ← sourceReg src s
  let r ← g a
  writeResult dst r s

/-- `NOT A, B` (R91). -/
def execNot (src dst : Word) (s : State) : Host.Outcome State Fault Refusal :=
  runHandler .not (unaryTransform aluNot src dst) s

end Sys2Proof.Machine
end

