-- ==== Sys2Proof/Machine/Transfer.lean ====
section
/-! DEFINITION. Register load and memory transfer (43_register_memory R93 to R98). None writes `zf`, `pc` or `bt` (R97). -/

namespace Sys2Proof.Machine

/-- `LOAD A, B`: a literal into a register (R93). -/
def execLoad (imm dst : Word) (s : State) : Host.Outcome State Fault Refusal :=
  runHandler .load (destReg dst (literal imm)) s

/-- R94: the register is checked before the address (R128). -/
def storeHandler (srcReg ramAddr : Word) (s : State) : Except Cause State := do
  let v ← sourceReg srcReg s
  ramDest ramAddr v s

/-- `RSTORE A, B`: a register to RAM (R94). -/
def execRstore (srcReg ramAddr : Word) (s : State) : Host.Outcome State Fault Refusal :=
  runHandler .rstore (storeHandler srcReg ramAddr) s

/-- R95, R96: the source is checked before the register (R128). -/
def copyHandler (source : State → Except Cause Word) (dst : Word) (s : State) : Except Cause State := do
  let v ← source s
  destReg dst v s

/-- `RCOPY A, B`: RAM to a register (R95). -/
def execRcopy (ramAddr dstReg : Word) (s : State) : Host.Outcome State Fault Refusal :=
  runHandler .rcopy (copyHandler (ramSource ramAddr) dstReg) s

/-- `ICOPY A, B`: operand store to a register (R96). -/
def execIcopy (romAddr dstReg : Word) (s : State) : Host.Outcome State Fault Refusal :=
  runHandler .icopy (copyHandler (ostoreSource romAddr) dstReg) s

end Sys2Proof.Machine
end

