-- ==== Sys2Proof/Machine/Control.lean ====
section
/-! DEFINITION. Control flow (44_control_flow R99 to R103). A target is not checked when the jump executes. -/

namespace Sys2Proof.Machine

/-- R99 -/
def jumpHandler (target : Word) (s : State) : Except Cause State := .ok (redirect (slotTarget target) s)

/-- R100: as `JMP` when the zero flag is set, otherwise nothing. -/
def jumpIfZeroHandler (target : Word) (s : State) : Except Cause State :=
  if s.zf then jumpHandler target s else .ok s

/-- `JMP A` (R99). -/
def execJmp (target : Word) (s : State) : Host.Outcome State Fault Refusal := runHandler .jmp (jumpHandler target) s

/-- `JMPZ A` (R100). -/
def execJmpz (target : Word) (s : State) : Host.Outcome State Fault Refusal :=
  runHandler .jmpz (jumpIfZeroHandler target) s

/-- `NOP` (R101). -/
def execNop (s : State) : Host.Outcome State Fault Refusal := runHandler .nop Except.ok s

end Sys2Proof.Machine
end

