-- ==== Sys2Proof/Machine/Print.lean ====
section
/-! DEFINITION. Text output (45_io_print R104 to R107). -/

namespace Sys2Proof.Machine

/-- A high surrogate code unit, 0xD800 to 0xDBFF (R105). -/
def isHighSurrogate (u : Word) : Bool := decide (0xD800 ≤ u.toNat ∧ u.toNat ≤ 0xDBFF)

/-- A low surrogate code unit, 0xDC00 to 0xDFFF (R105). -/
def isLowSurrogate (u : Word) : Bool := decide (0xDC00 ≤ u.toNat ∧ u.toNat ≤ 0xDFFF)

/-- The scalar a surrogate pair stands for (R105, G2). -/
def pairScalar (hi lo : Word) : Nat := 0x10000 + (hi.toNat - 0xD800) * 1024 + (lo.toNat - 0xDC00)

/-- The scalar of one code unit on its own: U+FFFD for an unpaired surrogate, else the unit itself (R105, G3). -/
def unitScalar (u : Word) : Nat := if isHighSurrogate u || isLowSurrogate u then 0xFFFD else u.toNat

/-- Lossy UTF-16 decoding, left to right, one U+FFFD per unpaired surrogate (R105, decision D13, log 12). -/
def decodeUtf16 : List Word → List Nat
  | [] => []
  | [u] => [unitScalar u]
  | u :: v :: us =>
    if isHighSurrogate u && isLowSurrogate v then pairScalar u v :: decodeUtf16 us
    else unitScalar u :: decodeUtf16 (v :: us)

/-- R104: the range check precedes the emission. -/
def printHandler (ramAddr length : Word) (s : State) : Except Cause State := do
  let u ← ramRange ramAddr length s
  .ok (emit (decodeUtf16 u) s)

/-- `PRINT A, B` (R104). -/
def execPrint (ramAddr length : Word) (s : State) : Host.Outcome State Fault Refusal :=
  runHandler .print (printHandler ramAddr length) s

end Sys2Proof.Machine
end

