-- ==== Sys2Proof/Machine/Unimplemented.lean ====
section
/-! DEFINITION. The five opcodes that are declared and have no handler (46_unimplemented R109 to R115): dispatching one
raises `UnimplementedOpcode`, and no stack, call or halt state is supplied (R115, U4). -/

namespace Sys2Proof.Machine

/-- Dispatch of an opcode without a handler: its own error, not wrapped (R109, R121, C9). -/
def raiseUnimplemented (op : Opcode) (s : State) : Host.Outcome State Fault Refusal :=
  s.raise (.unimplementedOpcode op)

/-- `HPUSH` (R110). -/
def execHpush (s : State) : Host.Outcome State Fault Refusal := raiseUnimplemented .hpush s

/-- `HPOP` (R111). -/
def execHpop (s : State) : Host.Outcome State Fault Refusal := raiseUnimplemented .hpop s

/-- `CALLR` (R112). -/
def execCallr (s : State) : Host.Outcome State Fault Refusal := raiseUnimplemented .callr s

/-- `RETURN` (R113). -/
def execRet (s : State) : Host.Outcome State Fault Refusal := raiseUnimplemented .ret s

/-- `HALT` (R114); the normal stop of a program (R70). -/
def execHalt (s : State) : Host.Outcome State Fault Refusal := raiseUnimplemented .halt s

end Sys2Proof.Machine
end

