-- ==== Sys2Proof/Machine/Dispatch.lean ====
section
/-! DEFINITION. Step 4 and 5 of the cycle: dispatch of the decoded instruction (40_engine_cycle R65), one arm each. -/

namespace Sys2Proof.Machine

def exec (i : Instr) (s : State) : Host.Outcome State Fault Refusal :=
  match i with
  | .nop => Sys2Proof.Machine.execNop s
  | .add src1 src2 dst => Sys2Proof.Machine.execAdd src1 src2 dst s
  | .sub src1 src2 dst => Sys2Proof.Machine.execSub src1 src2 dst s
  | .mult src1 src2 dst => Sys2Proof.Machine.execMult src1 src2 dst s
  | .div src1 src2 dst => Sys2Proof.Machine.execDiv src1 src2 dst s
  | .mod src1 src2 dst => Sys2Proof.Machine.execMod src1 src2 dst s
  | .or src1 src2 dst => Sys2Proof.Machine.execOr src1 src2 dst s
  | .xor src1 src2 dst => Sys2Proof.Machine.execXor src1 src2 dst s
  | .nor src1 src2 dst => Sys2Proof.Machine.execNor src1 src2 dst s
  | .nand src1 src2 dst => Sys2Proof.Machine.execNand src1 src2 dst s
  | .and src1 src2 dst => Sys2Proof.Machine.execAnd src1 src2 dst s
  | .not src dst => Sys2Proof.Machine.execNot src dst s
  | .shiftl src1 src2 dst => Sys2Proof.Machine.execShiftl src1 src2 dst s
  | .shiftr src1 src2 dst => Sys2Proof.Machine.execShiftr src1 src2 dst s
  | .load imm dst => Sys2Proof.Machine.execLoad imm dst s
  | .hpush => Sys2Proof.Machine.execHpush s
  | .hpop => Sys2Proof.Machine.execHpop s
  | .callr => Sys2Proof.Machine.execCallr s
  | .ret => Sys2Proof.Machine.execRet s
  | .rstore srcReg ramAddr => Sys2Proof.Machine.execRstore srcReg ramAddr s
  | .rcopy ramAddr dstReg => Sys2Proof.Machine.execRcopy ramAddr dstReg s
  | .icopy romAddr dstReg => Sys2Proof.Machine.execIcopy romAddr dstReg s
  | .jmp target => Sys2Proof.Machine.execJmp target s
  | .jmpz target => Sys2Proof.Machine.execJmpz target s
  | .print ramAddr length => Sys2Proof.Machine.execPrint ramAddr length s
  | .halt => Sys2Proof.Machine.execHalt s

end Sys2Proof.Machine
end

