-- ==== Sys2Proof/Machine/Fetch.lean ====
section
/-! DEFINITION. Steps 1 to 3 of the cycle: opcode fetch, decode, operand fetch, in that order, which is the order of
their errors (40_engine_cycle R62 to R64, R67); and the loader's placing of one slot (70_reset_and_hazards R143). -/

namespace Sys2Proof.Machine

/-- Step 1, `IFetch(pc)` (R62). -/
def fetchOpcode (s : State) : Except Error Word :=
  if s.pc < s.cfg.istoreLen then .ok (Mem.read s.istore s.pc) else .error (.outOfRangeFetchIstore s.pc)

/-- Step 2: the dictionary's lookup failure is reported as a decode error (R63, R119, C8). -/
def decodeOpcode (s : State) (w : Word) : Except Error Opcode :=
  match numericToSymbolic s.cfg.opmap w.toNat with
  | .ok op => .ok op
  | .error _ => .error (.decodeError w)

/-- Step 3, `OFetch(pc)`: the whole triplet or none of it (R64). -/
def fetchTriplet (s : State) (op : Opcode) : Except Error (Word × Word × Word) :=
  if 3 * s.pc + 3 ≤ s.cfg.ostoreLen then
    .ok (Mem.read s.ostore (3 * s.pc), Mem.read s.ostore (3 * s.pc + 1), Mem.read s.ostore (3 * s.pc + 2))
  else .error (.outOfRangeFetchOstore (3 * s.pc) op)

/-- The instruction of this cycle, or the first error of steps 1 to 3 (R60, R67). -/
def fetch (s : State) : Except Error Instr := do
  let w ← fetchOpcode s
  let op ← decodeOpcode s w
  let t ← fetchTriplet s op
  .ok (Instr.ofTriplet op t.1 t.2.1 t.2.2)

/-- The four words of slot `i`, as the two stores hold them (R45). -/
def State.slotAt (s : State) (i : Nat) : Slot :=
  { op := Mem.read s.istore i, a := Mem.read s.ostore (3 * i), b := Mem.read s.ostore (3 * i + 1),
    c := Mem.read s.ostore (3 * i + 2) }

/-- The loader's write of one instruction at slot `i` (R143), growing a store that is too short to hold the slot. -/
def State.placeSlot (s : State) (i : Nat) (sl : Slot) : State :=
  { s with
    cfg := { s.cfg with istoreLen := max s.cfg.istoreLen (i + 1), ostoreLen := max s.cfg.ostoreLen (3 * i + 3) },
    istore := Mem.write s.istore i sl.op,
    ostore := Mem.load s.ostore (3 * i) [sl.a, sl.b, sl.c] }

end Sys2Proof.Machine
end

