-- ==== Sys2Proof/Machine/Step.lean ====
section
/-! DEFINITION. One cycle, the machine's only transition (00_scope R6, 40_engine_cycle R60). -/

namespace Sys2Proof.Machine

/-- A cycle request. A running machine fetches, decodes and executes one instruction, or enters the first error that
applies (R60, R67, R129). A stopped machine performs no cycle and gives the error it stopped with (R21, U13, log 2). -/
def step (s : State) : Host.Outcome State Fault Refusal :=
  match s.status with
  | .stopped e => .fault (.stopped e)
  | .running =>
    match fetch s with
    | .error e => s.raise e
    | .ok i => exec i s

/-- The state with the instruction of an image (numbered as spec/opcode_table.json numbers it, R45) loaded in the slot
the next cycle fetches, and the machine running (log 15). -/
def State.withFetchWord (s : State) (nbits w : Nat) : State :=
  (s.placeSlot s.pc (Slot.ofImage (w % 2 ^ nbits))).setStatus .running

end Sys2Proof.Machine
end

