-- ==== Sys2Proof/Machine/Construct.lean ====
section
/-! DEFINITION. Construction, which is the machine's reset, and program load (70_reset_and_hazards R140 to R143). -/

namespace Sys2Proof.Machine

/-- A machine with a given dictionary and sizes, all state at its reset value and nothing loaded (R24, R140 step 3). -/
def State.fresh (cfg : Config) : State :=
  { cfg := cfg, x := [], pc := 0, zf := false, bt := false, dsp := 0, csp := 0, dstack := [], cstack := [],
    istore := [], ostore := [], ram := [], out := [], status := .running }

/-- The external loader's part: both images from index 0, every other store word 0 (R24, R140 step 4, R143). The images
are at most as long as their stores (R4, log 16). -/
def State.loadImages (s : State) (imageI imageO : List Word) : State :=
  { s with istore := Mem.load [] 0 imageI, ostore := Mem.load [] 0 imageO }

/-- Construct a machine: build the dictionary or abort startup, allocate and reset, load (R140). -/
def construct (entries : List (String × Nat)) (sizes : Sizes) (imageI imageO : List Word) :
    Except ConfigError State :=
  match build entries with
  | .error e => .error e
  | .ok m => .ok ((State.fresh { sizes with opmap := m }).loadImages imageI imageO)

end Sys2Proof.Machine
end

