-- ==== Sys2Proof/WellFormed.lean ====
section
/-! DEFINITION. Which instructions a program for a given dictionary can hold. No operand value makes an instruction
ill-formed (30_encoding R54); what can is the dictionary. -/

namespace Sys2Proof

/-- The instruction's opcode has an entry (R51), and that entry's code fits an instruction-store word (R49, U19). -/
def Instr.wellFormed (m : OpMap) (i : Instr) : Bool :=
  match m.codeOf i.opcode with
  | some k => decide (k < 65536)
  | none => false

end Sys2Proof
end

