-- ==== Sys2Proof/Safety.lean ====
section
/-! DEFINITION. The terms claims are made in: the invariant of reachable states, how a run ends (40_engine_cycle R70,
R71), and which opcodes may write what (10_state R11, R13; 20_memory R30). -/

namespace Sys2Proof

/-- The thirteen register transforms (R13). -/
def Opcode.isTransform : Opcode → Bool
  | .add | .sub | .mult | .div | .mod | .or | .xor | .nor | .nand | .and | .shiftl | .shiftr | .not => true
  | .nop | .load | .hpush | .hpop | .callr | .ret | .rstore | .rcopy | .icopy | .jmp | .jmpz | .print | .halt => false

/-- The writers of a register: the thirteen transforms, `LOAD`, `RCOPY` and `ICOPY` (R11). -/
def Opcode.writesRegister (op : Opcode) : Bool :=
  op.isTransform || op == .load || op == .rcopy || op == .icopy

end Sys2Proof

namespace Sys2Proof.Machine

/-- The numbers that are Unicode scalar values: every code point but the surrogates (R105). -/
abbrev isScalar (n : Nat) : Prop := n < 0xD800 ∨ (0xE000 ≤ n ∧ n ≤ 0x10FFFF)

/-- What holds of every machine state a construction and any number of cycles can reach. -/
structure State.Inv (s : State) : Prop where
  /-- The dictionary is injective both ways (R49). -/
  dictionary : s.cfg.opmap.valid
  /-- Every region is in canonical form and lists nothing outside its size (R17 to R19, R35). -/
  regs : Mem.fits s.x s.cfg.nregs
  ram : Mem.fits s.ram s.cfg.ramLen
  istore : Mem.fits s.istore s.cfg.istoreLen
  ostore : Mem.fits s.ostore s.cfg.ostoreLen
  dstack : Mem.fits s.dstack s.cfg.dstackLen
  cstack : Mem.fits s.cstack s.cfg.cstackLen
  /-- `pc <= max(ISTORE_LEN, 65535)` (R12). -/
  pcBound : s.pc ≤ max s.cfg.istoreLen 65535
  /-- Every emission is a list of Unicode scalar values (R20, R105). -/
  text : ∀ t ∈ s.out, ∀ c ∈ t, isScalar c

/-- The stop a program makes on purpose (R70, decision D21). -/
def Error.isNormalStop (e : Error) : Bool := e == .unimplementedOpcode .halt

/-- A run from `s` ends after `n` successful cycles with error `e`, in the final state `t` (R71). -/
def EndsAfter (s : State) (n : Nat) (e : Error) (t : State) : Prop :=
  ∃ u : State, Sys2Proof.core.run n s = .next u ∧ u.status = .running ∧ step u = .next t ∧ t = u.setStatus (.stopped e)

end Sys2Proof.Machine
end

