-- ==== Sys2Proof/Certificates/Slice0/Obligations.lean ====
section
/-! DEFINITION. The statements for the provers, and the vocabulary they share (namespace Sys2Proof.Claims). Each
docstring names the rules a statement formalises; where a clause rests on a decision of 92_eei_decisions.md, it says so. -/

namespace Sys2Proof.Claims

open Sys2Proof.Machine

/-- Under every valid dictionary the slot with the opcode's code and the operand words `a b c` decodes to the instruction
`mk a b c` (R45, R47, R50). -/
def Spells (op : Opcode) (mk : Word → Word → Word → Instr) : Prop :=
  ∀ (m : OpMap) (w a b c : Word), m.valid → symbolicToNumeric m op = .ok w.toNat →
    decode m { op := w, a := a, b := b, c := c } = .ok (mk a b c)

/-- The cycle fails with `e` and changes nothing but the status (R129). -/
def Fails (i : Instr) (s : State) (e : Error) : Prop :=
  exec i s = .next { s with status := .stopped e }

/-- What no instruction changes in a cycle that succeeds. -/
structure SameRest (s t : State) : Prop where
  cfg : t.cfg = s.cfg
  dsp : t.dsp = s.dsp
  csp : t.csp = s.csp
  dstack : t.dstack = s.dstack
  cstack : t.cstack = s.cstack
  istore : t.istore = s.istore
  ostore : t.ostore = s.ostore
  status : t.status = s.status

/-- A successful cycle whose only handler writes are register `d`, which gets the number `v`, and perhaps the zero flag:
every other register, every RAM word, OUT and the rest are unchanged, and `pc` advances. -/
structure RegWritten (s t : State) (d v : Nat) : Prop where
  value : (t.reg d).toNat = v
  otherRegs : ∀ i, i ≠ d → t.reg i = s.reg i
  ram : ∀ a, Mem.read t.ram a = Mem.read s.ram a
  out : t.out = s.out
  pc : t.pc = s.pc + 1
  bt : t.bt = false
  rest : SameRest s t

/-- A binary register transform (R75) with the function `f` on numbers, where `bad` says for which source values the
instruction raises which arithmetic error: encoding, result, flag, frame, and every error with its place in the order. -/
def BinaryTransformRule (op : Opcode) (mk : Word → Word → Word → Instr)
    (bad : Nat → Nat → Option ArithKind) (f : Nat → Nat → Nat) : Prop :=
  Spells op mk ∧
  ∀ (s : State) (a b c : Word),
    let x := (s.reg a.toNat).toNat
    let y := (s.reg b.toNat).toNat
    (a.toNat < s.cfg.nregs → b.toNat < s.cfg.nregs → c.toNat < s.cfg.nregs → bad x y = none →
      ∃ t, exec (mk a b c) s = .next t ∧ RegWritten s t c.toNat (f x y) ∧ t.zf = decide (f x y = 0)) ∧
    (s.cfg.nregs ≤ a.toNat →
      Fails (mk a b c) s (.executionError op (.outOfRangeAccess .reg a.toNat))) ∧
    (a.toNat < s.cfg.nregs → s.cfg.nregs ≤ b.toNat →
      Fails (mk a b c) s (.executionError op (.outOfRangeAccess .reg b.toNat))) ∧
    (∀ k, a.toNat < s.cfg.nregs → b.toNat < s.cfg.nregs → bad x y = some k →
      Fails (mk a b c) s (.executionError op (.arithmeticError k))) ∧
    (a.toNat < s.cfg.nregs → b.toNat < s.cfg.nregs → bad x y = none → s.cfg.nregs ≤ c.toNat →
      Fails (mk a b c) s (.executionError op (.outOfRangeAccess .reg c.toNat)))

/-- No source values are bad: the transforms that cannot fail arithmetically. -/
def never (_ _ : Nat) : Option ArithKind := none

/-- A copy into a register of word `w s a`, found when `a` is below `len s` (R93, R95, R96): result, frame, errors. -/
def CopyRule (op : Opcode) (mk : Word → Word → Instr) (space : Space) (len : State → Nat)
    (w : State → Nat → Word) : Prop :=
  Spells op (fun a b _ => mk a b) ∧
  ∀ (s : State) (a b : Word),
    (a.toNat < len s → b.toNat < s.cfg.nregs →
      ∃ t, exec (mk a b) s = .next t ∧ RegWritten s t b.toNat (w s a.toNat).toNat ∧ t.zf = s.zf) ∧
    (len s ≤ a.toNat → Fails (mk a b) s (.executionError op (.outOfRangeAccess space a.toNat))) ∧
    (a.toNat < len s → s.cfg.nregs ≤ b.toNat →
      Fails (mk a b) s (.executionError op (.outOfRangeAccess .reg b.toNat)))

/-- An opcode without a handler (R109): any operand words spell it, its dispatch fails with its own error, and so does every
cycle whose slot and triplet exist and whose opcode word some entry maps to it, whatever the triplet holds. -/
def UnimplementedRule (op : Opcode) (i : Instr) : Prop :=
  Spells op (fun _ _ _ => i) ∧ (∀ s : State, Fails i s (.unimplementedOpcode op)) ∧
  ∀ s : State, s.status = .running → s.pc < s.cfg.istoreLen → 3 * s.pc + 3 ≤ s.cfg.ostoreLen →
    numericToSymbolic s.cfg.opmap (Mem.read s.istore s.pc).toNat = .ok op →
    step s = .next { s with status := .stopped (.unimplementedOpcode op) }

/-- The five opcodes without a handler (R46). -/
def isUnimplemented (op : Opcode) : Prop :=
  op = .hpush ∨ op = .hpop ∨ op = .callr ∨ op = .ret ∨ op = .halt

/-- The code each opcode has in spec/opcode_table.json, which is REFMAP (R52, decision D1). -/
def tableCode : Opcode → Nat
  | .nop => 0 | .add => 1 | .sub => 2 | .mult => 3 | .div => 4 | .mod => 5 | .or => 6 | .xor => 7 | .nor => 8
  | .nand => 9 | .and => 10 | .not => 11 | .shiftl => 12 | .shiftr => 13 | .load => 14 | .hpush => 15 | .hpop => 16
  | .callr => 17 | .ret => 18 | .rstore => 19 | .rcopy => 20 | .icopy => 21 | .jmp => 22 | .jmpz => 23
  | .print => 24 | .halt => 25

/-- The text the next cycle emits: that of a PRINT it succeeds in executing, else nothing (R106). -/
def emitted (s : State) : List (List Nat) :=
  match step s, decode s.cfg.opmap (s.slotAt s.pc) with
  | .next t, .ok (.print a b) =>
    if t.status = .running then [decodeUtf16 (Mem.slice s.ram a.toNat b.toNat)] else []
  | _, _ => []

/-- The texts `n` cycles emit, in the order of the cycles (R106). -/
def emittedBy : Nat → State → List (List Nat)
  | 0, _ => []
  | n + 1, s =>
    match step s with
    | .next t => emitted s ++ emittedBy n t
    | _ => []

/-- How many words of the triplet an opcode uses (table of R47). -/
def operandCount : Opcode → Nat
  | .add | .sub | .mult | .div | .mod | .or | .xor | .nor | .nand | .and | .shiftl | .shiftr => 3
  | .not | .load | .rstore | .rcopy | .icopy | .print => 2
  | .jmp | .jmpz => 1
  | .nop | .hpush | .hpop | .callr | .ret | .halt => 0

/-- The loop of R105, word for word: `i` runs over the list `u`, `fuel` bounds the number of rounds. -/
def utf16Loop (u : List Word) : Nat → Nat → List Nat
  | 0, _ => []
  | fuel + 1, i =>
    if i < u.length then
      let h := (u.getD i 0).toNat
      let l := (u.getD (i + 1) 0).toNat
      if 0xD800 ≤ h ∧ h ≤ 0xDBFF ∧ i + 1 < u.length ∧ 0xDC00 ≤ l ∧ l ≤ 0xDFFF then
        (0x10000 + (h - 0xD800) * 1024 + (l - 0xDC00)) :: utf16Loop u fuel (i + 2)
      else if 0xD800 ≤ h ∧ h ≤ 0xDFFF then 0xFFFD :: utf16Loop u fuel (i + 1)
      else h :: utf16Loop u fuel (i + 1)
    else []

/-- The state with other stack contents and pointers (R15, R16). -/
def withStacks (s : State) (d c : Nat) (ds cs : Mem) : State :=
  { s with dsp := d, csp := c, dstack := ds, cstack := cs }

end Sys2Proof.Claims

open Sys2Proof Sys2Proof.Machine Sys2Proof.Claims

/-! ## Encoding and the dictionary -/

/-- Decode and encode agree: under every valid dictionary, every well-formed instruction, at every operand value, has a slot,
and that slot decodes to the instruction (R45, R47, R50, R51; operand placement is decision D2). -/
def Obligations.DecodeOfEncodeIsTheInstruction : Prop :=
  ∀ (m : OpMap) (i : Instr), m.valid → i.wellFormed m = true →
    ∃ sl, encode m i = some sl ∧ decode m sl = .ok i

/-- A slot that decodes is spelled again with the same opcode word, and the new slot decodes to the same instruction: only
unused operand words can differ (R50, R51, R53; decision D24). -/
def Obligations.EncodeOfDecodedSlotKeepsOpcodeWord : Prop :=
  ∀ (m : OpMap) (sl : Slot) (i : Instr), m.valid → decode m sl = .ok i →
    i.wellFormed m = true ∧ ∃ sl', encode m i = some sl' ∧ sl'.op = sl.op ∧ decode m sl' = .ok i

/-- The dictionary's stated properties: (a) and its converse, the two lookups are inverse; (b) an unknown symbolic opcode fails
with a Configuration Error naming it; (c) building is determined by the list (R53). -/
def Obligations.DictionaryLookupsAreInverse : Prop :=
  (∀ (es : List (String × Nat)) (m : OpMap), build es = .ok m → ∀ (s : Opcode) (k : Nat),
    symbolicToNumeric m s = .ok k ↔ numericToSymbolic m k = .ok s) ∧
  (∀ (es post : List (String × Nat)) (m : OpMap) (text : String) (k : Nat), build es = .ok m →
    (∀ s : Opcode, s.name ≠ text) → build (es ++ (text, k) :: post) = .error (.unknownSymbol text)) ∧
  (∀ (es : List (String × Nat)) (m m' : OpMap), build es = .ok m → build es = .ok m' →
    ∀ (s : Opcode) (k : Nat), symbolicToNumeric m s = symbolicToNumeric m' s ∧
      numericToSymbolic m k = numericToSymbolic m' k)

/-- `build` accepts exactly the lists of known, pairwise different names with pairwise different codes, and the result is the
valid map of exactly those entries (R49; the duplicate-name case is decision D15). -/
def Obligations.BuildAcceptsExactlyValidLists : Prop :=
  ∀ es : List (String × Nat),
    ((∃ m, build es = .ok m) ↔
      (∀ e ∈ es, ∃ s : Opcode, s.name = e.1) ∧ (es.map Prod.fst).Nodup ∧ (es.map Prod.snd).Nodup) ∧
    ∀ m, build es = .ok m → m.valid ∧ m.map (fun e => (e.1.name, e.2)) = es

/-- The build fails at the first bad entry, and for that entry tests the name, then the symbol, then the code (R49; the order
of the tests and the duplicate-name error are decision D15). -/
def Obligations.BuildReportsFirstBadEntry : Prop :=
  ∀ (es post : List (String × Nat)) (m : OpMap) (text : String) (k : Nat), build es = .ok m →
    ((∀ s : Opcode, s.name ≠ text) → build (es ++ (text, k) :: post) = .error (.unknownSymbol text)) ∧
    (∀ s : Opcode, s.name = text → text ∈ es.map Prod.fst →
      build (es ++ (text, k) :: post) = .error (.duplicateSymbol s)) ∧
    (∀ s : Opcode, s.name = text → text ∉ es.map Prod.fst → k ∈ es.map Prod.snd →
      build (es ++ (text, k) :: post) = .error (.duplicateCode k))

/-- An entry with a code of 65536 or more is never matched by a slot and cannot be encoded (R50, U19, C11). -/
def Obligations.WideCodesNeverDecode : Prop :=
  ∀ (m : OpMap) (op : Opcode) (k : Nat), m.valid → symbolicToNumeric m op = .ok k → 65536 ≤ k →
    (∀ (sl : Slot) (i : Instr), decode m sl = .ok i → i.opcode ≠ op) ∧
    ∀ i : Instr, i.opcode = op → encode m i = none

/-- For an existing slot with an existing triplet, the opcode word is in exactly one of three classes: implemented, recognized
and unimplemented, or unmapped; and the cycle is accordingly that of a handler, UnimplementedOpcode, or DecodeError
(R54). -/
def Obligations.OpcodeWordIsInOneOfThreeClasses : Prop :=
  ∀ s : State, s.status = .running → s.pc < s.cfg.istoreLen → 3 * s.pc + 3 ≤ s.cfg.ostoreLen →
    let w := Mem.read s.istore s.pc
    (∃ op t, numericToSymbolic s.cfg.opmap w.toNat = .ok op ∧ ¬isUnimplemented op ∧ step s = .next t ∧
      (t.status = .running ∨ ∃ c, t.status = .stopped (.executionError op c))) ∨
    (∃ op, numericToSymbolic s.cfg.opmap w.toNat = .ok op ∧ isUnimplemented op ∧
      step s = .next { s with status := .stopped (.unimplementedOpcode op) }) ∨
    (numericToSymbolic s.cfg.opmap w.toNat = .error (.numericKey w.toNat) ∧
      step s = .next { s with status := .stopped (.decodeError w) })

/-- REFMAP gives every opcode the code of its row in spec/opcode_table.json, and under it a 64-bit image spells a row's
instruction exactly when its bits under the mask `0xFFFF000000000000` are the row's `match` (R45, R52, R59; REFMAP is decision
D1, the image decision D17). -/
def Obligations.ReferenceImagesMatchTheTable : Prop :=
  ∀ (image : Nat) (op : Opcode), image < 2 ^ 64 →
    symbolicToNumeric refmap op = .ok (tableCode op) ∧
    ((∃ i, decode refmap (Slot.ofImage image) = .ok i ∧ i.opcode = op) ↔
      image &&& 0xFFFF000000000000 = tableCode op * 2 ^ 48)

/-- A few images of 95_test_vectors.md, written out there, decode to the instructions they stand for. -/
def Obligations.ReferenceWordsDecode : Prop :=
  decodeTableWord 64 0x0001000100020003 = some (.add 1 2 3) ∧
  decodeTableWord 64 0x000B000100020000 = some (.not 1 2) ∧
  decodeTableWord 64 0x000EBEEF00030000 = some (.load 0xBEEF 3) ∧
  decodeTableWord 64 0x0013000300FF0000 = some (.rstore 3 255) ∧
  decodeTableWord 64 0x0017000800000000 = some (.jmpz 8) ∧
  decodeTableWord 64 0x0018001000020000 = some (.print 16 2) ∧
  decodeTableWord 64 0x0019000000000000 = some .halt ∧
  decodeTableWord 64 0x001A000000000000 = none

/-- A triplet word the opcode does not use may hold any value without changing the instruction (R48, decision D24). -/
def Obligations.UnusedTripletWordsAreIgnored : Prop :=
  ∀ (m : OpMap) (w a b c a' b' c' : Word) (i : Instr),
    decode m { op := w, a := a, b := b, c := c } = .ok i →
    decode m { op := w
               a := if 1 ≤ operandCount i.opcode then a else a'
               b := if 2 ≤ operandCount i.opcode then b else b'
               c := if 3 ≤ operandCount i.opcode then c else c' } = .ok i

/-! ## The engine -/

/-- A step runs the decoded instruction: on a running machine whose slot `pc` exists with its whole triplet, the step is `exec`
of the instruction those four words spell, with nothing around it: `exec` itself clears `bt` and advances `pc`
(R60, R65). -/
def Obligations.StepRunsTheDecodedInstruction : Prop :=
  ∀ (s : State) (i : Instr), s.status = .running → s.pc < s.cfg.istoreLen → 3 * s.pc + 3 ≤ s.cfg.ostoreLen →
    decode s.cfg.opmap
      { op := Mem.read s.istore s.pc, a := Mem.read s.ostore (3 * s.pc),
        b := Mem.read s.ostore (3 * s.pc + 1), c := Mem.read s.ostore (3 * s.pc + 2) } = .ok i →
    step s = exec i s

/-- An image loaded at the program counter is the next instruction executed, whatever the state (R143). -/
def Obligations.LoadedImageIsTheNextInstruction : Prop :=
  ∀ (s : State) (image : Nat) (i : Instr), image < 2 ^ 64 →
    decode s.cfg.opmap (Slot.ofImage image) = .ok i →
    step (s.withFetchWord 64 image) = exec i (s.withFetchWord 64 image)

/-- Step 1: the opcode fetch fails exactly when `pc >= ISTORE_LEN`, with OutOfRangeFetch(ISTORE, pc); otherwise it gives the
word `istore[pc]` (R62). That it fails at `pc = ISTORE_LEN` is the spec's resolution C3 of "exceeds"; that the failing cycle keeps
all other state, `bt` included, is decision D9 with resolution C2 (log 10); that it is a next state with status Stopped(e) is
decision D11 and the model's choice (log 2). -/
def Obligations.FetchPastInstructionStoreFails : Prop :=
  ∀ s : State, s.status = .running →
    (s.cfg.istoreLen ≤ s.pc → step s = .next { s with status := .stopped (.outOfRangeFetchIstore s.pc) }) ∧
    (s.pc < s.cfg.istoreLen →
      fetchOpcode s = .ok (Mem.read s.istore s.pc) ∧
      ∀ t p, step s = .next t → t.status ≠ .stopped (.outOfRangeFetchIstore p))

/-- Step 2: a cycle whose slot exists fails with DecodeError(w), `w = istore[pc]`, when no entry of the dictionary has the code
`w`, whether or not the slot's triplet exists; when an entry has it, the opcode is that entry's and the cycle does not fail
with a DecodeError (R63). That the failing cycle keeps all other state, `bt` included, is decision D9 with resolution C2 (log 10);
that it is a next state with status Stopped(e) is decision D11 and the model's choice (log 2). -/
def Obligations.UnmappedWordIsDecodeError : Prop :=
  ∀ s : State, s.status = .running → s.pc < s.cfg.istoreLen →
    let w := Mem.read s.istore s.pc
    ((∀ e ∈ s.cfg.opmap, e.2 ≠ w.toNat) → step s = .next { s with status := .stopped (.decodeError w) }) ∧
    ∀ op, numericToSymbolic s.cfg.opmap w.toNat = .ok op →
      (op, w.toNat) ∈ s.cfg.opmap ∧ decodeOpcode s w = .ok op ∧
      ∀ t v, step s = .next t → t.status ≠ .stopped (.decodeError v)

/-- Step 3: a triplet not wholly inside the operand store fails the fetch, for every decoded opcode, the unimplemented ones
and NOP included; one wholly inside is `ostore[3*pc]`, `ostore[3*pc+1]`, `ostore[3*pc+2]`, and the cycle does not fail with
OutOfRangeFetch (R64; that it is fetched for every opcode is the spec's inference from the order of steps 3 and 4). -/
def Obligations.ShortTripletIsOutOfRangeFetch : Prop :=
  ∀ (s : State) (op : Opcode), s.status = .running → s.pc < s.cfg.istoreLen →
    numericToSymbolic s.cfg.opmap (Mem.read s.istore s.pc).toNat = .ok op →
    (s.cfg.ostoreLen < 3 * s.pc + 3 →
      step s = .next { s with status := .stopped (.outOfRangeFetchOstore (3 * s.pc) op) }) ∧
    (3 * s.pc + 3 ≤ s.cfg.ostoreLen →
      fetchTriplet s op =
        .ok (Mem.read s.ostore (3 * s.pc), Mem.read s.ostore (3 * s.pc + 1), Mem.read s.ostore (3 * s.pc + 2)) ∧
      ∀ t k op', step s = .next t → t.status ≠ .stopped (.outOfRangeFetchOstore k op'))

/-- A stopped machine performs no cycle, however often one is requested, and gives the same error (R21; the latch is decision
D11, the fault outcome log 2). -/
def Obligations.StoppedMachineNeverRuns : Prop :=
  ∀ (s : State) (e : Error) (k : Nat), s.status = .stopped e →
    Sys2Proof.core.run (k + 1) s = .fault (.stopped e)

/-- Every cycle of a running machine succeeds or fails: it gives a next state that is running, or stopped with an error and
otherwise unchanged; no state is stuck or refused (R60, R69). -/
def Obligations.EveryRunningCycleAnswers : Prop :=
  ∀ s : State, s.status = .running →
    ∃ t, step s = .next t ∧ (t.status = .running ∨ ∃ e, t = { s with status := .stopped e })

/-- A failing cycle commits nothing: only the status changes, `bt` and OUT included (R68; for every stage it is decision D9). -/
def Obligations.FailingCycleCommitsNothing : Prop :=
  ∀ (s t : State) (e : Error), step s = .next t → t.status = .stopped e → t = { s with status := .stopped e }

/-- Step 5: after a successful cycle `pc` is the target of a JMP, or of a JMPZ with the zero flag set, and `pc + 1` otherwise;
`bt` is true in exactly the first case (R66). -/
def Obligations.SuccessfulCycleAdvancesOrRedirects : Prop :=
  ∀ s t : State, step s = .next t → t.status = .running →
    ∃ i, decode s.cfg.opmap (s.slotAt s.pc) = .ok i ∧
      (∀ a : Word, i = .jmp a ∨ (i = .jmpz a ∧ s.zf = true) → t.pc = a.toNat ∧ t.bt = true) ∧
      ((∀ a : Word, i ≠ .jmp a ∧ (i = .jmpz a → s.zf = false)) → t.pc = s.pc + 1 ∧ t.bt = false)

/-- The branch-taken flag of the state before a cycle is never read: with another value a successful cycle gives the same
state, and a failing one the same state but for that value (R14, R61, R68). -/
def Obligations.BranchTakenFlagIsNeverRead : Prop :=
  ∀ (s t : State) (b : Bool), step s = .next t →
    (t.status = .running → step { s with bt := b } = .next t) ∧
    (∀ e, t.status = .stopped e → step { s with bt := b } = .next { t with bt := b })

/-- No cycle changes the dictionary or a size (R142). -/
def Obligations.DictionaryAndSizesNeverChange : Prop :=
  ∀ s t : State, step s = .next t → t.cfg = s.cfg

/-- No cycle writes the instruction store, the operand store, a stack or a stack pointer (R17, R18, R42, R115). -/
def Obligations.StoresAndStacksAreNeverWritten : Prop :=
  ∀ s t : State, step s = .next t →
    t.istore = s.istore ∧ t.ostore = s.ostore ∧ t.dsp = s.dsp ∧ t.csp = s.csp ∧
    t.dstack = s.dstack ∧ t.cstack = s.cstack

/-- Stack contents and pointers are never read: a cycle from a state with other stacks gives the same result with those stacks
(R15, R16, decision D16). -/
def Obligations.StackContentsAreUnobservable : Prop :=
  ∀ (s : State) (d c : Nat) (ds cs : Mem),
    step (withStacks s d c ds cs) =
      match step s with
      | .next t => .next (withStacks t d c ds cs)
      | .fault f => .fault f
      | .refused r => .refused r

/-- A cycle appends to OUT exactly the text of the PRINT it succeeds in executing, a failing cycle and every other instruction
nothing; so after `n` cycles OUT has grown by the texts of the successful PRINTs, in the order of their cycles (R106). -/
def Obligations.OnlySuccessfulPrintEmits : Prop :=
  (∀ s t : State, step s = .next t →
    (∀ a b : Word, decode s.cfg.opmap (s.slotAt s.pc) = .ok (.print a b) → t.status = .running →
      t.out = s.out ++ [decodeUtf16 (Mem.slice s.ram a.toNat b.toNat)]) ∧
    (t.status ≠ .running → t.out = s.out) ∧
    ((∀ a b : Word, decode s.cfg.opmap (s.slotAt s.pc) ≠ .ok (.print a b)) → t.out = s.out)) ∧
  ∀ (n : Nat) (s t : State), Sys2Proof.core.run n s = .next t → t.out = s.out ++ emittedBy n s

/-- Who may write what: registers only the thirteen transforms, LOAD, RCOPY and ICOPY; the zero flag only the transforms; RAM
only RSTORE; OUT only PRINT (R11, R13, R19, R20, table of R30). -/
def Obligations.OnlyNamedOpcodesWrite : Prop :=
  ∀ (i : Instr) (s t : State), exec i s = .next t →
    (i.opcode.writesRegister = false → ∀ r, t.reg r = s.reg r) ∧
    (i.opcode.isTransform = false → t.zf = s.zf) ∧
    (i.opcode ≠ .rstore → ∀ a, Mem.read t.ram a = Mem.read s.ram a) ∧
    (i.opcode ≠ .print → t.out = s.out)

/-! ## The invariant and construction -/

/-- The invariant (dictionary injective, every region canonical and inside its size, `pc` at most max(ISTORE_LEN, 65535), OUT
made of Unicode scalar values) is kept by every step, from every state that has it (R12, R20, R35, R49, R105). -/
def Obligations.InvariantIsKeptByEveryStep : Prop :=
  ∀ s t : State, s.Inv → step s = .next t → t.Inv

/-- The invariant holds after reset. -/
def Obligations.ResetMeetsTheInvariant : Prop := Sys2Proof.Machine.State.reset.Inv

/-- The reset values (R24; all are the spec's decisions D10 and D26, log 3, under the reference parameters, log 1). -/
def Obligations.ResetValues : Prop :=
  (∀ i, State.reset.reg i = 0) ∧ State.reset.pc = 0 ∧ State.reset.zf = false ∧ State.reset.bt = false ∧
  State.reset.dsp = 0 ∧ State.reset.csp = 0 ∧
  (∀ i, Mem.read State.reset.dstack i = 0 ∧ Mem.read State.reset.cstack i = 0 ∧
    Mem.read State.reset.istore i = 0 ∧ Mem.read State.reset.ostore i = 0 ∧ Mem.read State.reset.ram i = 0) ∧
  State.reset.out = [] ∧ State.reset.status = .running

/-- Construction: a dictionary that does not build aborts startup with its error; otherwise, with images that fit, the machine
meets the invariant, has the given parameters, holds the images from index 0 and 0 elsewhere, and all other state has its
reset value (R24, R117, R140, R143; the values are decisions D10 and D26). -/
def Obligations.ConstructionLoadsAndResets : Prop :=
  ∀ (es : List (String × Nat)) (sz : Sizes) (imageI imageO : List Word),
    (∀ e, build es = .error e → construct es sz imageI imageO = .error e) ∧
    (∀ m, build es = .ok m → imageI.length ≤ sz.istoreLen → imageO.length ≤ sz.ostoreLen →
      ∃ s, construct es sz imageI imageO = .ok s ∧ s.Inv ∧ s.cfg = { sz with opmap := m } ∧
        (∀ i, Mem.read s.istore i = imageI.getD i 0) ∧ (∀ i, Mem.read s.ostore i = imageO.getD i 0) ∧
        (∀ i, s.reg i = 0 ∧ Mem.read s.ram i = 0 ∧ Mem.read s.dstack i = 0 ∧ Mem.read s.cstack i = 0) ∧
        s.pc = 0 ∧ s.zf = false ∧ s.bt = false ∧ s.dsp = 0 ∧ s.csp = 0 ∧ s.out = [] ∧ s.status = .running)

/-! ## The transforms. The name of a handler's range error is decision D7, the order of its checks D8. -/

/-- ADD (R76). -/
def Obligations.AddWrapsModulo65536 : Prop :=
  BinaryTransformRule .add .add never (fun a b => (a + b) % 65536)

/-- SUB (R77): `a - b`, or `a - b + 65536` where `a < b`. -/
def Obligations.SubWrapsModulo65536 : Prop :=
  BinaryTransformRule .sub .sub never (fun a b => if b ≤ a then a - b else a + 65536 - b)

/-- MULT (R78): the low half of the product. -/
def Obligations.MultKeepsTheLowHalf : Prop :=
  BinaryTransformRule .mult .mult never (fun a b => a * b % 65536)

/-- DIV (R79; the unsigned reading is decision D3): the floor of the quotient, and a zero divisor is a fatal error. -/
def Obligations.DivIsUnsignedFloorOrFails : Prop :=
  BinaryTransformRule .div .div (fun _ b => if b = 0 then some .divideByZero else none) (fun a b => a / b)

/-- MOD (R80): `a - b * (a div b)`, and a zero modulus is a fatal error. -/
def Obligations.ModIsRemainderOrFails : Prop :=
  BinaryTransformRule .mod .mod (fun _ b => if b = 0 then some .moduloByZero else none)
    (fun a b => a - b * (a / b))

/-- OR (R81). -/
def Obligations.OrIsBitwise : Prop := BinaryTransformRule .or .or never (fun a b => a ||| b)

/-- XOR (R82). -/
def Obligations.XorIsBitwise : Prop := BinaryTransformRule .xor .xor never (fun a b => a ^^^ b)

/-- NOR (R83): `65535 - (a or b)`. -/
def Obligations.NorIsComplementOfOr : Prop := BinaryTransformRule .nor .nor never (fun a b => 65535 - (a ||| b))

/-- NAND (R84): `65535 - (a and b)`. -/
def Obligations.NandIsComplementOfAnd : Prop :=
  BinaryTransformRule .nand .nand never (fun a b => 65535 - (a &&& b))

/-- AND (R85). -/
def Obligations.AndIsBitwise : Prop := BinaryTransformRule .and .and never (fun a b => a &&& b)

/-- SHIFTL (R86; operand roles and the error for a count of 16 or more are decision D4). -/
def Obligations.ShiftlIsLogicalOrFails : Prop :=
  BinaryTransformRule .shiftl .shiftl (fun _ n => if 16 ≤ n then some (.shiftCount n) else none)
    (fun a n => a * 2 ^ n % 65536)

/-- SHIFTR (R87; operand roles and the count error are decision D4, the zero fill D3). -/
def Obligations.ShiftrIsLogicalOrFails : Prop :=
  BinaryTransformRule .shiftr .shiftr (fun _ n => if 16 ≤ n then some (.shiftCount n) else none)
    (fun a n => a / 2 ^ n)

/-- NOT (R90, R91): `65535 - a` into the register named by word B, the zero flag from the result, and its two errors. -/
def Obligations.NotIsComplement : Prop :=
  Spells .not (fun a b _ => .not a b) ∧
  ∀ (s : State) (a b : Word),
    let r := 65535 - (s.reg a.toNat).toNat
    (a.toNat < s.cfg.nregs → b.toNat < s.cfg.nregs →
      ∃ t, exec (.not a b) s = .next t ∧ RegWritten s t b.toNat r ∧ t.zf = decide (r = 0)) ∧
    (s.cfg.nregs ≤ a.toNat → Fails (.not a b) s (.executionError .not (.outOfRangeAccess .reg a.toNat))) ∧
    (a.toNat < s.cfg.nregs → s.cfg.nregs ≤ b.toNat →
      Fails (.not a b) s (.executionError .not (.outOfRangeAccess .reg b.toNat)))

/-! ## Register and memory movement -/

/-- LOAD (R93): the literal into the register, the zero flag untouched, and its one error. -/
def Obligations.LoadWritesTheLiteral : Prop :=
  Spells .load (fun a b _ => .load a b) ∧
  ∀ (s : State) (a b : Word),
    (b.toNat < s.cfg.nregs →
      ∃ t, exec (.load a b) s = .next t ∧ RegWritten s t b.toNat a.toNat ∧ t.zf = s.zf) ∧
    (s.cfg.nregs ≤ b.toNat → Fails (.load a b) s (.executionError .load (.outOfRangeAccess .reg b.toNat)))

/-- RSTORE (R94, R97, R98; the order of the two checks is decision D8): the register's word at RAM address B, every other RAM
word and everything else unchanged, and its two errors. -/
def Obligations.RstoreWritesOneRamWord : Prop :=
  Spells .rstore (fun a b _ => .rstore a b) ∧
  ∀ (s : State) (a b : Word),
    (a.toNat < s.cfg.nregs → b.toNat < s.cfg.ramLen →
      ∃ t, exec (.rstore a b) s = .next t ∧ Mem.read t.ram b.toNat = s.reg a.toNat ∧
        (∀ k, k ≠ b.toNat → Mem.read t.ram k = Mem.read s.ram k) ∧ (∀ i, t.reg i = s.reg i) ∧
        t.zf = s.zf ∧ t.out = s.out ∧ t.pc = s.pc + 1 ∧ t.bt = false ∧ SameRest s t) ∧
    (s.cfg.nregs ≤ a.toNat →
      Fails (.rstore a b) s (.executionError .rstore (.outOfRangeAccess .reg a.toNat))) ∧
    (a.toNat < s.cfg.nregs → s.cfg.ramLen ≤ b.toNat →
      Fails (.rstore a b) s (.executionError .rstore (.outOfRangeAccess .ram b.toNat)))

/-- RCOPY (R95, R97; the order of the two checks is decision D8). -/
def Obligations.RcopyReadsOneRamWord : Prop :=
  CopyRule .rcopy .rcopy .ram (fun s => s.cfg.ramLen) (fun s a => Mem.read s.ram a)

/-- ICOPY (R31, R96, R97; the order of the two checks is decision D8): an absolute word index of the operand store. -/
def Obligations.IcopyReadsOneOperandStoreWord : Prop :=
  CopyRule .icopy .icopy .ostore (fun s => s.cfg.ostoreLen) (fun s a => Mem.read s.ostore a)

/-- RSTORE then RCOPY of the same address copies the register (R98 (c)); LOAD then RSTORE stores the literal (R98 (d)). -/
def Obligations.StoreThenCopyGivesTheStoredWord : Prop :=
  ∀ (s : State) (k a m d : Word), a.toNat < s.cfg.nregs → d.toNat < s.cfg.nregs → m.toNat < s.cfg.ramLen →
    (∃ t u, exec (.rstore a m) s = .next t ∧ exec (.rcopy m d) t = .next u ∧ u.reg d.toNat = s.reg a.toNat ∧
      Mem.read u.ram m.toNat = s.reg a.toNat) ∧
    (∃ t u, exec (.load k d) s = .next t ∧ exec (.rstore d m) t = .next u ∧ Mem.read u.ram m.toNat = k)

/-! ## Control flow -/

/-- JMP (R99): the target, unchecked, and the branch-taken mark; nothing else. -/
def Obligations.JmpRedirects : Prop :=
  Spells .jmp (fun a _ _ => .jmp a) ∧
  ∀ (s : State) (a : Word), exec (.jmp a) s = .next { s with pc := a.toNat, bt := true }

/-- JMPZ (R100): as JMP when the zero flag is set, the next slot otherwise; the flag is not written. -/
def Obligations.JmpzRedirectsOnZero : Prop :=
  Spells .jmpz (fun a _ _ => .jmpz a) ∧
  ∀ (s : State) (a : Word),
    (s.zf = true → exec (.jmpz a) s = .next { s with pc := a.toNat, bt := true }) ∧
    (s.zf = false → exec (.jmpz a) s = .next { s with pc := s.pc + 1, bt := false })

/-- NOP (R101): the next slot, nothing else. -/
def Obligations.NopOnlyAdvances : Prop :=
  Spells .nop (fun _ _ _ => .nop) ∧ ∀ s : State, exec .nop s = .next { s with pc := s.pc + 1, bt := false }

/-- A JMP to its own slot runs for ever: after any number of cycles the machine is running at the same slot (R72). -/
def Obligations.JumpToItselfNeverEnds : Prop :=
  ∀ (s : State) (a : Word), s.status = .running → s.pc < s.cfg.istoreLen → 3 * s.pc + 3 ≤ s.cfg.ostoreLen →
    decode s.cfg.opmap (s.slotAt s.pc) = .ok (.jmp a) → a.toNat = s.pc →
    ∀ k, Sys2Proof.core.run (k + 1) s = .next { s with bt := true }

/-- Falling through the last slot: the cycle succeeds, and the next fails with OutOfRangeFetch at ISTORE_LEN (R73). -/
def Obligations.FallingThroughTheEndStops : Prop :=
  ∀ s t : State, s.pc + 1 = s.cfg.istoreLen → step s = .next t → t.status = .running → t.bt = false →
    step t = .next { t with status := .stopped (.outOfRangeFetchIstore s.cfg.istoreLen) }

/-! ## Output -/

/-- PRINT (R104; the exact range check is decision D14, the shape of OUT D12): one emission, the decoding of the words
`ram[A] .. ram[A+B-1]`, and nothing else; it fails exactly when the range leaves RAM. -/
def Obligations.PrintEmitsTheDecodedRange : Prop :=
  Spells .print (fun a b _ => .print a b) ∧
  ∀ (s : State) (a b : Word),
    (a.toNat + b.toNat ≤ s.cfg.ramLen →
      ∃ u : List Word, u.length = b.toNat ∧
        (∀ k, k < b.toNat → u[k]? = some (Mem.read s.ram (a.toNat + k))) ∧
        exec (.print a b) s =
          .next { s with out := s.out ++ [decodeUtf16 u], pc := s.pc + 1, bt := false }) ∧
    (s.cfg.ramLen < a.toNat + b.toNat →
      Fails (.print a b) s (.executionError .print (.outOfRangeAccess .ram a.toNat)))

/-- The worked property: PRINT over the two code units of "Hi" emits "Hi" (R107). -/
def Obligations.PrintHiEmitsHi : Prop :=
  ∀ (s : State) (a : Word), a.toNat + 2 ≤ s.cfg.ramLen → Mem.read s.ram a.toNat = 0x0048 →
    Mem.read s.ram (a.toNat + 1) = 0x0069 →
    exec (.print a 2) s = .next { s with out := s.out ++ [[0x48, 0x69]], pc := s.pc + 1, bt := false }

/-- The model's decoding is the loop of R105, on every list of words (the replacement policy is decision D13). -/
def Obligations.Utf16DecodingIsTheLoop : Prop :=
  ∀ u : List Word, decodeUtf16 u = utf16Loop u u.length 0

/-- The result of decoding `n` words has between `ceil(n / 2)` and `n` scalars, all Unicode scalar values (R105). -/
def Obligations.Utf16DecodingLengthAndScalars : Prop :=
  ∀ u : List Word, u.length ≤ 2 * (decodeUtf16 u).length ∧ (decodeUtf16 u).length ≤ u.length ∧
    ∀ c ∈ decodeUtf16 u, isScalar c

/-! ## The opcodes without a handler, and the end of a run -/

/-- HPUSH, HPOP, CALLR, RETURN and HALT: with any operand words the dispatch fails with the opcode's UnimplementedOpcode, no
state but the status changes and `pc` stays (R109 to R114). -/
def Obligations.UnimplementedOpcodesFail : Prop :=
  UnimplementedRule .hpush .hpush ∧ UnimplementedRule .hpop .hpop ∧ UnimplementedRule .callr .callr ∧
  UnimplementedRule .ret .ret ∧ UnimplementedRule .halt .halt

/-- A HALT in a whole slot ends the run at once, and that stop is the normal one (R70; the name is decision D21). -/
def Obligations.HaltIsTheNormalStop : Prop :=
  ∀ s : State, s.status = .running → s.pc < s.cfg.istoreLen → 3 * s.pc + 3 ≤ s.cfg.ostoreLen →
    decode s.cfg.opmap (s.slotAt s.pc) = .ok .halt →
    EndsAfter s 0 (.unimplementedOpcode .halt) { s with status := .stopped (.unimplementedOpcode .halt) } ∧
    ∀ e, Error.isNormalStop e = true ↔ e = .unimplementedOpcode .halt

/-- A run that ends has one end: the number of successful cycles, the error and the final state are determined (R69, R71). -/
def Obligations.EndOfRunIsUnique : Prop :=
  ∀ (s : State) (n n' : Nat) (e e' : Error) (t t' : State),
    EndsAfter s n e t → EndsAfter s n' e' t' → n = n' ∧ e = e' ∧ t = t'
end

