-- ==== Sys2Proof/Laws/Dictionary.lean ====
section
/-! SUPPORT. Laws of the dictionary lookups (30_encoding R49 to R51). -/

namespace Sys2Proof

theorem Opcode.ofName_name (s : Opcode) : Opcode.ofName s.name = some s := by cases s <;> decide

theorem Opcode.name_of_ofName {text : String} {s : Opcode} (h : Opcode.ofName text = some s) : s.name = text := by
  simpa using List.find?_some h

/-- A code found for an opcode is that of an entry. -/
theorem OpMap.mem_of_codeOf {m : OpMap} {s : Opcode} {k : Nat} (h : m.codeOf s = some k) : (s, k) ∈ m := by
  simp only [OpMap.codeOf, Option.map_eq_some_iff] at h
  obtain ⟨e, he, rfl⟩ := h
  have h1 : e.1 = s := by simpa using List.find?_some he
  have h2 := List.mem_of_find?_eq_some he
  rwa [← h1]

/-- An opcode found for a code is that of an entry. -/
theorem OpMap.mem_of_symOf {m : OpMap} {s : Opcode} {k : Nat} (h : m.symOf k = some s) : (s, k) ∈ m := by
  simp only [OpMap.symOf, Option.map_eq_some_iff] at h
  obtain ⟨e, he, rfl⟩ := h
  have h1 : e.2 = k := by simpa using List.find?_some he
  have h2 := List.mem_of_find?_eq_some he
  rwa [← h1]

theorem OpMap.codeOf_of_mem {m : OpMap} (hv : m.valid) {s : Opcode} {k : Nat} (h : (s, k) ∈ m) :
    m.codeOf s = some k := by
  cases hf : m.find? (fun e => e.1 == s) with
  | none => exact absurd (List.find?_eq_none.1 hf _ h) (by simp)
  | some e =>
    have h1 : e.1 = s := by simpa using List.find?_some hf
    have h2 := List.inj_on_of_nodup_map hv.1 (List.mem_of_find?_eq_some hf) h h1
    simp [OpMap.codeOf, hf, h2]

theorem OpMap.symOf_of_mem {m : OpMap} (hv : m.valid) {s : Opcode} {k : Nat} (h : (s, k) ∈ m) :
    m.symOf k = some s := by
  cases hf : m.find? (fun e => e.2 == k) with
  | none => exact absurd (List.find?_eq_none.1 hf _ h) (by simp)
  | some e =>
    have h1 : e.2 = k := by simpa using List.find?_some hf
    have h2 := List.inj_on_of_nodup_map hv.2 (List.mem_of_find?_eq_some hf) h h1
    simp [OpMap.symOf, hf, h2]

/-- In a valid dictionary the two lookups are inverse to each other. -/
theorem OpMap.symOf_iff_codeOf {m : OpMap} (hv : m.valid) {s : Opcode} {k : Nat} :
    m.symOf k = some s ↔ m.codeOf s = some k :=
  ⟨fun h => OpMap.codeOf_of_mem hv (OpMap.mem_of_symOf h), fun h => OpMap.symOf_of_mem hv (OpMap.mem_of_codeOf h)⟩

theorem numericToSymbolic_eq_ok {m : OpMap} {k : Nat} {s : Opcode} :
    numericToSymbolic m k = .ok s ↔ m.symOf k = some s := by
  rw [numericToSymbolic]; split <;> simp_all

theorem symbolicToNumeric_eq_ok {m : OpMap} {s : Opcode} {k : Nat} :
    symbolicToNumeric m s = .ok k ↔ m.codeOf s = some k := by
  rw [symbolicToNumeric]; split <;> simp_all

theorem decode_eq_ok {m : OpMap} {sl : Slot} {i : Instr} :
    decode m sl = .ok i ↔ ∃ s, m.symOf sl.op.toNat = some s ∧ Instr.ofTriplet s sl.a sl.b sl.c = i := by
  rw [decode]
  cases h : numericToSymbolic m sl.op.toNat with
  | ok s => simp [numericToSymbolic_eq_ok.1 h]
  | error e =>
    have : m.symOf sl.op.toNat = none := by
      rw [numericToSymbolic] at h; split at h <;> simp_all
    simp [this]

/-- Building goes on from what the first entries gave. -/
theorem buildFrom_append (es post : List (String × Nat)) (done m : OpMap) (h : buildFrom done es = .ok m) :
    buildFrom done (es ++ post) = buildFrom m post := by
  induction es generalizing done with
  | nil => cases h; rfl
  | cons e es ih =>
    obtain ⟨text, code⟩ := e
    rw [List.cons_append, buildFrom]
    rw [buildFrom] at h
    split at h
    · cases h
    · split at h
      · cases h
      · split at h
        · cases h
        · simp_all

end Sys2Proof
end

