-- ==== Sys2Proof/Laws/State.lean ====
section
/-! SUPPORT. Each field of each update of State, so that no proof unfolds a record update. -/

namespace Sys2Proof.Machine

section SetX
variable (s : State) (m : Mem)
@[simp] theorem State.setX_cfg : (s.setX m).cfg = s.cfg := rfl
@[simp] theorem State.setX_x : (s.setX m).x = m := rfl
@[simp] theorem State.setX_pc : (s.setX m).pc = s.pc := rfl
@[simp] theorem State.setX_zf : (s.setX m).zf = s.zf := rfl
@[simp] theorem State.setX_bt : (s.setX m).bt = s.bt := rfl
@[simp] theorem State.setX_dsp : (s.setX m).dsp = s.dsp := rfl
@[simp] theorem State.setX_csp : (s.setX m).csp = s.csp := rfl
@[simp] theorem State.setX_dstack : (s.setX m).dstack = s.dstack := rfl
@[simp] theorem State.setX_cstack : (s.setX m).cstack = s.cstack := rfl
@[simp] theorem State.setX_istore : (s.setX m).istore = s.istore := rfl
@[simp] theorem State.setX_ostore : (s.setX m).ostore = s.ostore := rfl
@[simp] theorem State.setX_ram : (s.setX m).ram = s.ram := rfl
@[simp] theorem State.setX_out : (s.setX m).out = s.out := rfl
@[simp] theorem State.setX_status : (s.setX m).status = s.status := rfl
end SetX

section SetPc
variable (s : State) (n : Nat)
@[simp] theorem State.setPc_cfg : (s.setPc n).cfg = s.cfg := rfl
@[simp] theorem State.setPc_x : (s.setPc n).x = s.x := rfl
@[simp] theorem State.setPc_pc : (s.setPc n).pc = n := rfl
@[simp] theorem State.setPc_zf : (s.setPc n).zf = s.zf := rfl
@[simp] theorem State.setPc_bt : (s.setPc n).bt = s.bt := rfl
@[simp] theorem State.setPc_dsp : (s.setPc n).dsp = s.dsp := rfl
@[simp] theorem State.setPc_csp : (s.setPc n).csp = s.csp := rfl
@[simp] theorem State.setPc_dstack : (s.setPc n).dstack = s.dstack := rfl
@[simp] theorem State.setPc_cstack : (s.setPc n).cstack = s.cstack := rfl
@[simp] theorem State.setPc_istore : (s.setPc n).istore = s.istore := rfl
@[simp] theorem State.setPc_ostore : (s.setPc n).ostore = s.ostore := rfl
@[simp] theorem State.setPc_ram : (s.setPc n).ram = s.ram := rfl
@[simp] theorem State.setPc_out : (s.setPc n).out = s.out := rfl
@[simp] theorem State.setPc_status : (s.setPc n).status = s.status := rfl
end SetPc

section SetZf
variable (s : State) (b : Bool)
@[simp] theorem State.setZf_cfg : (s.setZf b).cfg = s.cfg := rfl
@[simp] theorem State.setZf_x : (s.setZf b).x = s.x := rfl
@[simp] theorem State.setZf_pc : (s.setZf b).pc = s.pc := rfl
@[simp] theorem State.setZf_zf : (s.setZf b).zf = b := rfl
@[simp] theorem State.setZf_bt : (s.setZf b).bt = s.bt := rfl
@[simp] theorem State.setZf_dsp : (s.setZf b).dsp = s.dsp := rfl
@[simp] theorem State.setZf_csp : (s.setZf b).csp = s.csp := rfl
@[simp] theorem State.setZf_dstack : (s.setZf b).dstack = s.dstack := rfl
@[simp] theorem State.setZf_cstack : (s.setZf b).cstack = s.cstack := rfl
@[simp] theorem State.setZf_istore : (s.setZf b).istore = s.istore := rfl
@[simp] theorem State.setZf_ostore : (s.setZf b).ostore = s.ostore := rfl
@[simp] theorem State.setZf_ram : (s.setZf b).ram = s.ram := rfl
@[simp] theorem State.setZf_out : (s.setZf b).out = s.out := rfl
@[simp] theorem State.setZf_status : (s.setZf b).status = s.status := rfl
end SetZf

section SetBt
variable (s : State) (b : Bool)
@[simp] theorem State.setBt_cfg : (s.setBt b).cfg = s.cfg := rfl
@[simp] theorem State.setBt_x : (s.setBt b).x = s.x := rfl
@[simp] theorem State.setBt_pc : (s.setBt b).pc = s.pc := rfl
@[simp] theorem State.setBt_zf : (s.setBt b).zf = s.zf := rfl
@[simp] theorem State.setBt_bt : (s.setBt b).bt = b := rfl
@[simp] theorem State.setBt_dsp : (s.setBt b).dsp = s.dsp := rfl
@[simp] theorem State.setBt_csp : (s.setBt b).csp = s.csp := rfl
@[simp] theorem State.setBt_dstack : (s.setBt b).dstack = s.dstack := rfl
@[simp] theorem State.setBt_cstack : (s.setBt b).cstack = s.cstack := rfl
@[simp] theorem State.setBt_istore : (s.setBt b).istore = s.istore := rfl
@[simp] theorem State.setBt_ostore : (s.setBt b).ostore = s.ostore := rfl
@[simp] theorem State.setBt_ram : (s.setBt b).ram = s.ram := rfl
@[simp] theorem State.setBt_out : (s.setBt b).out = s.out := rfl
@[simp] theorem State.setBt_status : (s.setBt b).status = s.status := rfl
end SetBt

section SetRam
variable (s : State) (m : Mem)
@[simp] theorem State.setRam_cfg : (s.setRam m).cfg = s.cfg := rfl
@[simp] theorem State.setRam_x : (s.setRam m).x = s.x := rfl
@[simp] theorem State.setRam_pc : (s.setRam m).pc = s.pc := rfl
@[simp] theorem State.setRam_zf : (s.setRam m).zf = s.zf := rfl
@[simp] theorem State.setRam_bt : (s.setRam m).bt = s.bt := rfl
@[simp] theorem State.setRam_dsp : (s.setRam m).dsp = s.dsp := rfl
@[simp] theorem State.setRam_csp : (s.setRam m).csp = s.csp := rfl
@[simp] theorem State.setRam_dstack : (s.setRam m).dstack = s.dstack := rfl
@[simp] theorem State.setRam_cstack : (s.setRam m).cstack = s.cstack := rfl
@[simp] theorem State.setRam_istore : (s.setRam m).istore = s.istore := rfl
@[simp] theorem State.setRam_ostore : (s.setRam m).ostore = s.ostore := rfl
@[simp] theorem State.setRam_ram : (s.setRam m).ram = m := rfl
@[simp] theorem State.setRam_out : (s.setRam m).out = s.out := rfl
@[simp] theorem State.setRam_status : (s.setRam m).status = s.status := rfl
end SetRam

section SetOut
variable (s : State) (o : List (List Nat))
@[simp] theorem State.setOut_cfg : (s.setOut o).cfg = s.cfg := rfl
@[simp] theorem State.setOut_x : (s.setOut o).x = s.x := rfl
@[simp] theorem State.setOut_pc : (s.setOut o).pc = s.pc := rfl
@[simp] theorem State.setOut_zf : (s.setOut o).zf = s.zf := rfl
@[simp] theorem State.setOut_bt : (s.setOut o).bt = s.bt := rfl
@[simp] theorem State.setOut_dsp : (s.setOut o).dsp = s.dsp := rfl
@[simp] theorem State.setOut_csp : (s.setOut o).csp = s.csp := rfl
@[simp] theorem State.setOut_dstack : (s.setOut o).dstack = s.dstack := rfl
@[simp] theorem State.setOut_cstack : (s.setOut o).cstack = s.cstack := rfl
@[simp] theorem State.setOut_istore : (s.setOut o).istore = s.istore := rfl
@[simp] theorem State.setOut_ostore : (s.setOut o).ostore = s.ostore := rfl
@[simp] theorem State.setOut_ram : (s.setOut o).ram = s.ram := rfl
@[simp] theorem State.setOut_out : (s.setOut o).out = o := rfl
@[simp] theorem State.setOut_status : (s.setOut o).status = s.status := rfl
end SetOut

section SetStatus
variable (s : State) (st : Status)
@[simp] theorem State.setStatus_cfg : (s.setStatus st).cfg = s.cfg := rfl
@[simp] theorem State.setStatus_x : (s.setStatus st).x = s.x := rfl
@[simp] theorem State.setStatus_pc : (s.setStatus st).pc = s.pc := rfl
@[simp] theorem State.setStatus_zf : (s.setStatus st).zf = s.zf := rfl
@[simp] theorem State.setStatus_bt : (s.setStatus st).bt = s.bt := rfl
@[simp] theorem State.setStatus_dsp : (s.setStatus st).dsp = s.dsp := rfl
@[simp] theorem State.setStatus_csp : (s.setStatus st).csp = s.csp := rfl
@[simp] theorem State.setStatus_dstack : (s.setStatus st).dstack = s.dstack := rfl
@[simp] theorem State.setStatus_cstack : (s.setStatus st).cstack = s.cstack := rfl
@[simp] theorem State.setStatus_istore : (s.setStatus st).istore = s.istore := rfl
@[simp] theorem State.setStatus_ostore : (s.setStatus st).ostore = s.ostore := rfl
@[simp] theorem State.setStatus_ram : (s.setStatus st).ram = s.ram := rfl
@[simp] theorem State.setStatus_out : (s.setStatus st).out = s.out := rfl
@[simp] theorem State.setStatus_status : (s.setStatus st).status = st := rfl
end SetStatus

/-- A register's content depends on the register file alone. -/
@[simp] theorem State.setX_reg (s : State) (m : Mem) (i : Nat) : (s.setX m).reg i = Mem.read m i := rfl
@[simp] theorem State.setPc_reg (s : State) (n i : Nat) : (s.setPc n).reg i = s.reg i := rfl
@[simp] theorem State.setZf_reg (s : State) (b : Bool) (i : Nat) : (s.setZf b).reg i = s.reg i := rfl
@[simp] theorem State.setBt_reg (s : State) (b : Bool) (i : Nat) : (s.setBt b).reg i = s.reg i := rfl
@[simp] theorem State.setRam_reg (s : State) (m : Mem) (i : Nat) : (s.setRam m).reg i = s.reg i := rfl
@[simp] theorem State.setOut_reg (s : State) (o : List (List Nat)) (i : Nat) : (s.setOut o).reg i = s.reg i := rfl
@[simp] theorem State.setStatus_reg (s : State) (st : Status) (i : Nat) : (s.setStatus st).reg i = s.reg i := rfl

end Sys2Proof.Machine
end

