-- ==== Sys2Proof/Laws/Memory.lean ====
section
/-! SUPPORT. Laws of the region operations: read after write, and that every operation keeps the canonical form. -/

namespace Sys2Proof.Machine

theorem Mem.read_eq_unlisted {m : Mem} {a : Nat} (h : ∀ c ∈ m, c.1 ≠ a) : Mem.read m a = Mem.unlisted := by
  induction m with
  | nil => rfl
  | cons c m ih =>
    rw [Mem.read, if_neg (h c (by simp))]
    exact ih fun d hd => h d (by simp [hd])

theorem Mem.read_erase_same (m : Mem) (a : Nat) : Mem.read (Mem.erase m a) a = Mem.unlisted :=
  Mem.read_eq_unlisted (by simp [Mem.erase])

theorem Mem.read_erase_other (m : Mem) {a b : Nat} (h : b ≠ a) : Mem.read (Mem.erase m a) b = Mem.read m b := by
  induction m with
  | nil => rfl
  | cons c m ih =>
    simp only [Mem.erase, List.filter_cons] at ih ⊢
    split
    · simp only [Mem.read, ih]
    · next hn =>
      have hc : c.1 = a := by simpa [bne] using hn
      rw [ih, Mem.read, if_neg (by omega)]

theorem Mem.read_insert_same {m : Mem} {a : Nat} (v : Word) (h : ∀ c ∈ m, c.1 ≠ a) :
    Mem.read (Mem.insert m a v) a = v := by
  induction m with
  | nil => simp [Mem.insert, Mem.read]
  | cons c m ih =>
    rw [Mem.insert]
    split
    · simp [Mem.read]
    · rw [Mem.read, if_neg (h c (by simp))]
      exact ih fun d hd => h d (by simp [hd])

theorem Mem.read_insert_other (m : Mem) {a b : Nat} (v : Word) (h : b ≠ a) :
    Mem.read (Mem.insert m a v) b = Mem.read m b := by
  induction m with
  | nil => simp [Mem.insert, Mem.read, h.symm]
  | cons c m ih =>
    rw [Mem.insert]
    split
    · simp [Mem.read, h.symm]
    · simp only [Mem.read, ih]

/-- A read of the written index gives the value written, in any list. -/
@[simp] theorem Mem.read_write_same (m : Mem) (a : Nat) (v : Word) : Mem.read (Mem.write m a v) a = v := by
  rw [Mem.write]
  split
  · subst v; exact Mem.read_erase_same m a
  · exact Mem.read_insert_same v (by simp [Mem.erase])

/-- A write leaves every other index alone, in any list. -/
theorem Mem.read_write_other (m : Mem) {a b : Nat} (v : Word) (h : b ≠ a) :
    Mem.read (Mem.write m a v) b = Mem.read m b := by
  rw [Mem.write]
  split
  · exact Mem.read_erase_other m h
  · rw [Mem.read_insert_other _ v h, Mem.read_erase_other m h]

theorem Mem.read_write (m : Mem) (a b : Nat) (v : Word) :
    Mem.read (Mem.write m a v) b = if b = a then v else Mem.read m b := by
  split
  · subst b; exact Mem.read_write_same m a v
  · exact Mem.read_write_other m v ‹_›

/-! The canonical form -/

theorem Mem.fits_nil (len : Nat) : Mem.fits [] len := by simp [Mem.fits, Mem.wf]

theorem Mem.mem_insert {m : Mem} {a : Nat} {v : Word} {c : Nat × Word} (h : c ∈ Mem.insert m a v) :
    c = (a, v) ∨ c ∈ m := by
  induction m with
  | nil => simpa [Mem.insert] using h
  | cons d m ih =>
    rw [Mem.insert] at h
    split at h
    · simpa using h
    · rcases List.mem_cons.1 h with h | h
      · exact .inr (by simp [h])
      · exact (ih h).imp_right fun h => by simp [h]

theorem Mem.erase_wf {m : Mem} (h : Mem.wf m) (a : Nat) : Mem.wf (Mem.erase m a) :=
  ⟨h.1.filter _, fun c hc => h.2 c (List.mem_of_mem_filter hc)⟩

theorem Mem.insert_wf {m : Mem} (h : Mem.wf m) {a : Nat} (ha : ∀ c ∈ m, c.1 ≠ a) {v : Word}
    (hv : v ≠ Mem.unlisted) : Mem.wf (Mem.insert m a v) := by
  refine ⟨?_, fun c hc => ?_⟩
  · induction m with
    | nil => simp [Mem.insert]
    | cons d m ih =>
      obtain ⟨hd, hm⟩ := List.pairwise_cons.1 h.1
      have hda : d.1 ≠ a := ha d (by simp)
      rw [Mem.insert]
      split
      · refine List.pairwise_cons.2 ⟨fun c hc => ?_, h.1⟩
        rcases List.mem_cons.1 hc with rfl | hc
        · assumption
        · have := hd c hc; simp only at *; omega
      · refine List.pairwise_cons.2 ⟨fun c hc => ?_, ih ⟨hm, fun c hc => h.2 c (by simp [hc])⟩
          fun c hc => ha c (by simp [hc])⟩
        rcases Mem.mem_insert hc with rfl | hc
        · simp only at *; omega
        · exact hd c hc
  · rcases Mem.mem_insert hc with rfl | hc
    · exact hv
    · exact h.2 c hc

/-- A write inside the region's size keeps the canonical form and lists nothing outside the size. -/
theorem Mem.write_fits {m : Mem} {len a : Nat} (h : Mem.fits m len) (ha : a < len) (v : Word) :
    Mem.fits (Mem.write m a v) len := by
  have he : Mem.fits (Mem.erase m a) len :=
    ⟨Mem.erase_wf h.1 a, fun c hc => h.2 c (List.mem_of_mem_filter hc)⟩
  rw [Mem.write]
  split
  · exact he
  · refine ⟨Mem.insert_wf he.1 (by simp [Mem.erase]) ‹_›, fun c hc => ?_⟩
    rcases Mem.mem_insert hc with rfl | hc
    · exact ha
    · exact he.2 c hc

/-- Loading words that fit keeps the form. -/
theorem Mem.load_fits {len : Nat} (ws : List Word) {m : Mem} {a : Nat} (h : Mem.fits m len)
    (ha : a + ws.length ≤ len) : Mem.fits (Mem.load m a ws) len := by
  induction ws generalizing m a with
  | nil => exact h
  | cons w ws ih =>
    simp only [List.length_cons] at ha
    exact ih (Mem.write_fits h (by omega) w) (by omega)

/-- What a loaded region reads as. -/
theorem Mem.read_load (ws : List Word) (m : Mem) (a b : Nat) :
    Mem.read (Mem.load m a ws) b = if a ≤ b ∧ b < a + ws.length then ws.getD (b - a) Mem.unlisted else Mem.read m b := by
  induction ws generalizing m a with
  | nil => rw [Mem.load, if_neg (by simp)]
  | cons w ws ih =>
    rw [Mem.load, ih, Mem.read_write]
    simp only [List.length_cons]
    rcases Nat.lt_trichotomy b a with h | rfl | h
    · rw [if_neg (by omega), if_neg (by omega), if_neg (by omega)]
    · rw [if_neg (by omega), if_pos rfl, if_pos (by omega)]; simp
    · have hb : b - a = (b - (a + 1)) + 1 := by omega
      by_cases hlt : b < a + 1 + ws.length
      · rw [if_pos (by omega), if_pos (by omega), hb]; simp
      · rw [if_neg (by omega), if_neg (by omega), if_neg (by omega)]

@[simp] theorem Mem.length_slice (m : Mem) (a n : Nat) : (Mem.slice m a n).length = n := by
  induction n generalizing a with
  | zero => rfl
  | succ n ih => simp [Mem.slice, ih]

theorem Mem.getElem_slice (m : Mem) (a n k : Nat) (h : k < n) :
    (Mem.slice m a n)[k]? = some (Mem.read m (a + k)) := by
  induction n generalizing a k with
  | zero => omega
  | succ n ih =>
    cases k with
    | zero => simp [Mem.slice]
    | succ k => rw [Mem.slice, List.getElem?_cons_succ, ih _ _ (by omega)]; congr 2; omega

/-- What a canonical list holds is what it reads as. -/
theorem Mem.mem_iff_read {m : Mem} (h : Mem.wf m) (a : Nat) (w : Word) :
    (a, w) ∈ m ↔ Mem.read m a = w ∧ w ≠ Mem.unlisted := by
  induction m with
  | nil => simpa [Mem.read] using fun h : Mem.unlisted = w => h.symm
  | cons c m ih =>
    obtain ⟨b, v⟩ := c
    obtain ⟨hlt, hm⟩ := List.pairwise_cons.1 h.1
    have hv : v ≠ Mem.unlisted := h.2 (b, v) (by simp)
    have ih := ih ⟨hm, fun c hc => h.2 c (by simp [hc])⟩
    rw [List.mem_cons, Mem.read]
    split
    · subst b
      refine ⟨?_, fun ⟨hw, _⟩ => .inl (by rw [hw])⟩
      rintro (hc | hc)
      · cases hc; exact ⟨rfl, hv⟩
      · exact absurd (hlt _ hc) (by simp)
    · next hne =>
      rw [← ih]
      exact ⟨fun hc => hc.resolve_left fun he => hne (Prod.mk.inj he).1.symm, .inr⟩

/-- Canonical lists with equal contents are equal lists. -/
theorem Mem.eq_of_read_eq {m m' : Mem} (h : Mem.wf m) (h' : Mem.wf m')
    (hr : ∀ a, Mem.read m a = Mem.read m' a) : m = m' := by
  have hp : m.Perm m' := by
    refine (List.perm_ext_iff_of_nodup (h.1.imp fun hc he => ?_) (h'.1.imp fun hc he => ?_)).2 fun c => ?_
    · rw [he] at hc; exact absurd hc (lt_irrefl _)
    · rw [he] at hc; exact absurd hc (lt_irrefl _)
    · rw [show c = (c.1, c.2) from rfl, Mem.mem_iff_read h, Mem.mem_iff_read h', hr]
  exact hp.eq_of_pairwise (fun a b _ _ h1 h2 => absurd h1 (Nat.lt_asymm h2)) h.1 h'.1

end Sys2Proof.Machine
end

