-- ==== Sys2Proof/Laws/Ops.lean ====
section
/-! SUPPORT. What each shared operation can do. -/

namespace Sys2Proof.Machine

/-- Sequencing after a success, and after a failure, of a handler's action. -/
@[simp] theorem ok_bind {ε α β : Type} (a : α) (f : α → Except ε β) : (Except.ok a >>= f) = f a := rfl
@[simp] theorem error_bind {ε α β : Type} (e : ε) (f : α → Except ε β) :
    ((Except.error e : Except ε α) >>= f) = .error e := rfl

/-- A sequence succeeds only through a success of its first part. -/
theorem bind_eq_ok {ε α β : Type} {x : Except ε α} {f : α → Except ε β} {b : β} :
    (x >>= f) = .ok b ↔ ∃ a, x = .ok a ∧ f a = .ok b := by
  cases x <;> simp

theorem readReg_ok {s : State} {i : Nat} (h : i < s.cfg.nregs) : readReg i s = .ok (s.reg i) := if_pos h

theorem readReg_error {s : State} {i : Nat} (h : ¬i < s.cfg.nregs) :
    readReg i s = .error (.outOfRangeAccess .reg i) := if_neg h

theorem readReg_eq_ok {s : State} {i : Nat} {v : Word} :
    readReg i s = .ok v ↔ i < s.cfg.nregs ∧ v = s.reg i := by
  rw [readReg]; split <;> simp_all [eq_comm]

theorem writeReg_ok {s : State} {i : Nat} (v : Word) (h : i < s.cfg.nregs) :
    writeReg i v s = .ok (s.setX (Mem.write s.x i v)) := if_pos h

theorem writeReg_error {s : State} {i : Nat} (v : Word) (h : ¬i < s.cfg.nregs) :
    writeReg i v s = .error (.outOfRangeAccess .reg i) := if_neg h

theorem writeReg_eq_ok {s t : State} {i : Nat} {v : Word} :
    writeReg i v s = .ok t ↔ i < s.cfg.nregs ∧ t = s.setX (Mem.write s.x i v) := by
  rw [writeReg]; split <;> simp_all [eq_comm]

theorem readRam_eq_ok {s : State} {a n : Nat} {ws : List Word} :
    readRam a n s = .ok ws ↔ a + n ≤ s.cfg.ramLen ∧ ws = Mem.slice s.ram a n := by
  rw [readRam]; split <;> simp_all [eq_comm]

theorem readRamWord_eq_ok {s : State} {a : Nat} {v : Word} :
    readRamWord a s = .ok v ↔ a < s.cfg.ramLen ∧ v = Mem.read s.ram a := by
  rw [readRamWord]; split <;> simp_all [eq_comm]

theorem writeRamWord_eq_ok {s t : State} {a : Nat} {v : Word} :
    writeRamWord a v s = .ok t ↔ a < s.cfg.ramLen ∧ t = s.setRam (Mem.write s.ram a v) := by
  rw [writeRamWord]; split <;> simp_all [eq_comm]

theorem readOstoreWord_eq_ok {s : State} {a : Nat} {v : Word} :
    readOstoreWord a s = .ok v ↔ a < s.cfg.ostoreLen ∧ v = Mem.read s.ostore a := by
  rw [readOstoreWord]; split <;> simp_all [eq_comm]

/-- A result is written only to an existing register, with the zero flag of the same word. -/
theorem writeResult_eq_ok {s t : State} {d r : Word} :
    writeResult d r s = .ok t ↔
      d.toNat < s.cfg.nregs ∧ t = (s.setX (Mem.write s.x d.toNat r)).setZf (zeroFlag r) := by
  simp only [writeResult, destReg, operandIndex, bind_eq_ok, writeReg_eq_ok, Except.ok.injEq]
  grind

/-- Everything a successful binary transform does. -/
theorem binaryTransform_eq_ok {f : Word → Word → Except Cause Word} {a b c : Word} {s t : State} :
    binaryTransform f a b c s = .ok t ↔
      a.toNat < s.cfg.nregs ∧ b.toNat < s.cfg.nregs ∧ c.toNat < s.cfg.nregs ∧
      ∃ r, f (s.reg a.toNat) (s.reg b.toNat) = .ok r ∧
        t = (s.setX (Mem.write s.x c.toNat r)).setZf (zeroFlag r) := by
  simp only [binaryTransform, sourceReg, operandIndex, bind_eq_ok, readReg_eq_ok, writeResult_eq_ok]
  grind

/-- Everything a successful unary transform does. -/
theorem unaryTransform_eq_ok {g : Word → Except Cause Word} {a b : Word} {s t : State} :
    unaryTransform g a b s = .ok t ↔
      a.toNat < s.cfg.nregs ∧ b.toNat < s.cfg.nregs ∧
      ∃ r, g (s.reg a.toNat) = .ok r ∧ t = (s.setX (Mem.write s.x b.toNat r)).setZf (zeroFlag r) := by
  simp only [unaryTransform, sourceReg, operandIndex, bind_eq_ok, readReg_eq_ok, writeResult_eq_ok]
  grind

/-- Everything a successful store does. -/
theorem storeHandler_eq_ok {a b : Word} {s t : State} :
    storeHandler a b s = .ok t ↔
      a.toNat < s.cfg.nregs ∧ b.toNat < s.cfg.ramLen ∧ t = s.setRam (Mem.write s.ram b.toNat (s.reg a.toNat)) := by
  simp only [storeHandler, sourceReg, ramDest, operandIndex, bind_eq_ok, readReg_eq_ok, writeRamWord_eq_ok]
  grind

/-- Everything a successful copy to a register does. -/
theorem copyHandler_eq_ok {source : State → Except Cause Word} {b : Word} {s t : State} :
    copyHandler source b s = .ok t ↔
      b.toNat < s.cfg.nregs ∧ ∃ v, source s = .ok v ∧ t = s.setX (Mem.write s.x b.toNat v) := by
  simp only [copyHandler, destReg, operandIndex, bind_eq_ok, writeReg_eq_ok]
  grind

/-- Everything a successful `PRINT` does. -/
theorem printHandler_eq_ok {a b : Word} {s t : State} :
    printHandler a b s = .ok t ↔
      a.toNat + b.toNat ≤ s.cfg.ramLen ∧ t = s.setOut (s.out ++ [decodeUtf16 (Mem.slice s.ram a.toNat b.toNat)]) := by
  simp only [printHandler, ramRange, operandIndex, bind_eq_ok, readRam_eq_ok, emit, Except.ok.injEq]
  grind

theorem runHandler_ok {op : Opcode} {h : State → Except Cause State} {s t : State}
    (ht : h (s.setBt false) = .ok t) : runHandler op h s = .next t.advancePc := by
  rw [runHandler, ht]

theorem runHandler_error {op : Opcode} {h : State → Except Cause State} {s : State} {c : Cause}
    (hc : h (s.setBt false) = .error c) :
    runHandler op h s = .next (s.setStatus (.stopped (.executionError op c))) := by
  rw [runHandler, hc]; rfl

/-- A cycle after its operand fetch gives a next state always: the handler's, or the error entry's. -/
theorem runHandler_cases (op : Opcode) (h : State → Except Cause State) (s : State) :
    (∃ u, h (s.setBt false) = .ok u ∧ runHandler op h s = .next u.advancePc) ∨
    (∃ c, h (s.setBt false) = .error c ∧
      runHandler op h s = .next (s.setStatus (.stopped (.executionError op c)))) := by
  cases hh : h (s.setBt false) with
  | ok u => exact .inl ⟨u, rfl, runHandler_ok hh⟩
  | error c => exact .inr ⟨c, rfl, runHandler_error hh⟩

theorem advancePc_of_bt {s : State} (h : s.bt = true) : s.advancePc = s := by simp [State.advancePc, h]

theorem advancePc_of_not_bt {s : State} (h : s.bt = false) : s.advancePc = s.setPc (s.pc + 1) := by
  simp [State.advancePc, h]

/-- A fetch succeeds only inside both stores and on a mapped opcode word (R62 to R64). -/
theorem fetch_eq_ok {s : State} {i : Instr} :
    fetch s = .ok i ↔
      s.pc < s.cfg.istoreLen ∧ 3 * s.pc + 3 ≤ s.cfg.ostoreLen ∧ decode s.cfg.opmap (s.slotAt s.pc) = .ok i := by
  simp only [fetch, fetchOpcode, decodeOpcode, fetchTriplet, decode, State.slotAt]
  by_cases h1 : s.pc < s.cfg.istoreLen <;> simp only [h1, if_true, if_false, ok_bind, error_bind, true_and, false_and]
  · cases numericToSymbolic s.cfg.opmap (Mem.read s.istore s.pc).toNat with
    | error e => simp
    | ok op =>
      by_cases h2 : 3 * s.pc + 3 ≤ s.cfg.ostoreLen <;> simp [h2]
  · simp

/-- A fetch fails with the first of its three errors (R62 to R64, R67). -/
theorem fetch_error_cases {s : State} {e : Error} (h : fetch s = .error e) :
    (s.cfg.istoreLen ≤ s.pc ∧ e = .outOfRangeFetchIstore s.pc) ∨
    (s.pc < s.cfg.istoreLen ∧
      numericToSymbolic s.cfg.opmap (Mem.read s.istore s.pc).toNat =
        .error (.numericKey (Mem.read s.istore s.pc).toNat) ∧
      e = .decodeError (Mem.read s.istore s.pc)) ∨
    (s.pc < s.cfg.istoreLen ∧ ∃ op, numericToSymbolic s.cfg.opmap (Mem.read s.istore s.pc).toNat = .ok op ∧
      s.cfg.ostoreLen < 3 * s.pc + 3 ∧ e = .outOfRangeFetchOstore (3 * s.pc) op) := by
  by_cases h1 : s.pc < s.cfg.istoreLen
  · cases h2 : numericToSymbolic s.cfg.opmap (Mem.read s.istore s.pc).toNat with
    | error k =>
      simp only [fetch, fetchOpcode, h1, if_true, decodeOpcode, h2, ok_bind, error_bind] at h
      simp only [numericToSymbolic] at h2
      split at h2
      · cases h2
      · cases h2; cases h; exact .inr (.inl ⟨h1, rfl, rfl⟩)
    | ok op =>
      simp only [fetch, fetchOpcode, h1, if_true, decodeOpcode, h2, ok_bind, fetchTriplet] at h
      split at h
      · cases h
      · cases h; exact .inr (.inr ⟨h1, op, rfl, by omega, rfl⟩)
  · simp only [fetch, fetchOpcode, h1, if_false, error_bind] at h
    cases h; exact .inl ⟨by omega, rfl⟩

end Sys2Proof.Machine
end

