-- ==== Sys2Proof/Laws/Exec.lean ====
section
/-! SUPPORT. What `exec` and `step` can do, said once. -/

namespace Sys2Proof.Machine

/-- What a handler that succeeds leaves before the engine advances `pc`, by the kind of instruction. -/
def HandlerEffect (i : Instr) (s u : State) : Prop :=
  (i.opcode.isTransform = true ∧ ∃ d r, d < s.cfg.nregs ∧
      u = ((s.setBt false).setX (Mem.write s.x d r)).setZf (zeroFlag r)) ∨
  (i.opcode ∈ [Opcode.load, .rcopy, .icopy] ∧ ∃ d v, d < s.cfg.nregs ∧
      u = (s.setBt false).setX (Mem.write s.x d v)) ∨
  (∃ a b, i = .rstore a b ∧ b.toNat < s.cfg.ramLen ∧
      u = (s.setBt false).setRam (Mem.write s.ram b.toNat (s.reg a.toNat))) ∨
  (∃ a b, i = .print a b ∧ a.toNat + b.toNat ≤ s.cfg.ramLen ∧
      u = (s.setBt false).setOut (s.out ++ [decodeUtf16 (Mem.slice s.ram a.toNat b.toNat)])) ∨
  (∃ a, (i = .jmp a ∨ i = .jmpz a ∧ s.zf = true) ∧ u = ((s.setBt false).setPc a.toNat).setBt true) ∨
  ((i = .nop ∨ ∃ a, i = .jmpz a ∧ s.zf = false) ∧ u = s.setBt false)

/-- The five opcodes without a handler (R46). -/
def Opcode.withoutHandler : List Opcode := [.hpush, .hpop, .callr, .ret, .halt]

/-- The errors an instruction's execute stage can return (R121, R122). -/
def HandlerError (i : Instr) (e : Error) : Prop :=
  (i.opcode ∈ Opcode.withoutHandler ∧ e = .unimplementedOpcode i.opcode) ∨
  (i.opcode ∉ Opcode.withoutHandler ∧ ∃ c, e = .executionError i.opcode c)

/-- Whatever a handler returns, the cycle gives a next state; if every success of the handler has the instruction's
effect, so has the cycle. -/
theorem runHandler_effect {i : Instr} {op : Opcode} {h : State → Except Cause State} {s : State}
    (ho : op = i.opcode ∧ op ∉ Opcode.withoutHandler)
    (hu : ∀ u, h (s.setBt false) = .ok u → HandlerEffect i s u) :
    (∃ e, HandlerError i e ∧ runHandler op h s = .next (s.setStatus (.stopped e))) ∨
    (∃ u, runHandler op h s = .next u.advancePc ∧ HandlerEffect i s u) := by
  obtain ⟨rfl, hn⟩ := ho
  rcases runHandler_cases i.opcode h s with ⟨u, h1, h2⟩ | ⟨c, _, h2⟩
  · exact .inr ⟨u, h2, hu u h1⟩
  · exact .inl ⟨_, .inr ⟨hn, c, rfl⟩, h2⟩

theorem unimplemented_error {i : Instr} (h : i.opcode ∈ Opcode.withoutHandler) (s : State) :
    ∃ e, HandlerError i e ∧ raiseUnimplemented i.opcode s = .next (s.setStatus (.stopped e)) :=
  ⟨_, .inl ⟨h, rfl⟩, rfl⟩

theorem binary_effect {i : Instr} {f : Word → Word → Except Cause Word} {a b c : Word} {s : State}
    (hi : i.opcode.isTransform = true) (u : State) (h : binaryTransform f a b c (s.setBt false) = .ok u) :
    HandlerEffect i s u := by
  obtain ⟨_, _, hc, r, _, rfl⟩ := binaryTransform_eq_ok.1 h
  exact .inl ⟨hi, _, r, hc, rfl⟩

theorem copy_effect {i : Instr} {source : State → Except Cause Word} {b : Word} {s : State}
    (hi : i.opcode ∈ [Opcode.load, .rcopy, .icopy]) (u : State)
    (h : copyHandler source b (s.setBt false) = .ok u) : HandlerEffect i s u := by
  obtain ⟨hb, v, _, rfl⟩ := copyHandler_eq_ok.1 h
  exact .inr (.inl ⟨hi, _, v, hb, rfl⟩)

/-- Everything `exec` can do: it always gives a next state, either error entry or the handler's effect and step 5. -/
theorem exec_effect (i : Instr) (s : State) :
    (∃ e, HandlerError i e ∧ exec i s = .next (s.setStatus (.stopped e))) ∨
    (∃ u, exec i s = .next u.advancePc ∧ HandlerEffect i s u) := by
  cases i with
  | add => exact runHandler_effect ⟨rfl, by decide⟩ (binary_effect rfl)
  | sub => exact runHandler_effect ⟨rfl, by decide⟩ (binary_effect rfl)
  | mult => exact runHandler_effect ⟨rfl, by decide⟩ (binary_effect rfl)
  | div => exact runHandler_effect ⟨rfl, by decide⟩ (binary_effect rfl)
  | mod => exact runHandler_effect ⟨rfl, by decide⟩ (binary_effect rfl)
  | or => exact runHandler_effect ⟨rfl, by decide⟩ (binary_effect rfl)
  | xor => exact runHandler_effect ⟨rfl, by decide⟩ (binary_effect rfl)
  | nor => exact runHandler_effect ⟨rfl, by decide⟩ (binary_effect rfl)
  | nand => exact runHandler_effect ⟨rfl, by decide⟩ (binary_effect rfl)
  | and => exact runHandler_effect ⟨rfl, by decide⟩ (binary_effect rfl)
  | shiftl => exact runHandler_effect ⟨rfl, by decide⟩ (binary_effect rfl)
  | shiftr => exact runHandler_effect ⟨rfl, by decide⟩ (binary_effect rfl)
  | not a b =>
    refine runHandler_effect ⟨rfl, by decide⟩ fun u h => ?_
    obtain ⟨_, hb, r, _, rfl⟩ := unaryTransform_eq_ok.1 h
    exact .inl ⟨rfl, _, r, hb, rfl⟩
  | load a b =>
    refine runHandler_effect ⟨rfl, by decide⟩ fun u h => ?_
    obtain ⟨hb, rfl⟩ := writeReg_eq_ok.1 h
    exact .inr (.inl ⟨by simp [Instr.opcode], _, a, hb, rfl⟩)
  | rcopy a b => exact runHandler_effect ⟨rfl, by decide⟩ (copy_effect (by simp [Instr.opcode]))
  | icopy a b => exact runHandler_effect ⟨rfl, by decide⟩ (copy_effect (by simp [Instr.opcode]))
  | rstore a b =>
    refine runHandler_effect ⟨rfl, by decide⟩ fun u h => ?_
    obtain ⟨_, hb, rfl⟩ := storeHandler_eq_ok.1 h
    exact .inr (.inr (.inl ⟨a, b, rfl, hb, rfl⟩))
  | print a b =>
    refine runHandler_effect ⟨rfl, by decide⟩ fun u h => ?_
    obtain ⟨hr, rfl⟩ := printHandler_eq_ok.1 h
    exact .inr (.inr (.inr (.inl ⟨a, b, rfl, hr, rfl⟩)))
  | jmp a =>
    refine runHandler_effect (op := .jmp) (h := jumpHandler a) ⟨rfl, by decide⟩ fun u h => ?_
    cases h
    exact .inr (.inr (.inr (.inr (.inl ⟨a, .inl rfl, rfl⟩))))
  | jmpz a =>
    refine runHandler_effect ⟨rfl, by decide⟩ fun u h => ?_
    cases hz : s.zf
    · simp only [jumpIfZeroHandler, State.setBt_zf, hz] at h
      cases h
      exact .inr (.inr (.inr (.inr (.inr ⟨.inr ⟨a, rfl, hz⟩, rfl⟩))))
    · simp only [jumpIfZeroHandler, State.setBt_zf, hz] at h
      cases h
      exact .inr (.inr (.inr (.inr (.inl ⟨a, .inr ⟨rfl, hz⟩, rfl⟩))))
  | nop =>
    refine runHandler_effect (op := .nop) (h := Except.ok) ⟨rfl, by decide⟩ fun u h => ?_
    cases h
    exact .inr (.inr (.inr (.inr (.inr ⟨.inl rfl, rfl⟩))))
  | hpush => exact .inl (unimplemented_error (i := .hpush) (by decide) s)
  | hpop => exact .inl (unimplemented_error (i := .hpop) (by decide) s)
  | callr => exact .inl (unimplemented_error (i := .callr) (by decide) s)
  | ret => exact .inl (unimplemented_error (i := .ret) (by decide) s)
  | halt => exact .inl (unimplemented_error (i := .halt) (by decide) s)

theorem step_of_stopped {s : State} {e : Error} (h : s.status = .stopped e) : step s = .fault (.stopped e) := by
  simp [step, h]

theorem step_of_fetch_error {s : State} {e : Error} (h : s.status = .running) (he : fetch s = .error e) :
    step s = .next (s.setStatus (.stopped e)) := by
  simp [step, h, he, State.raise]

theorem step_of_fetch {s : State} {i : Instr} (h : s.status = .running) (hi : fetch s = .ok i) :
    step s = exec i s := by
  simp [step, h, hi]

/-- Everything a step that gives a next state can have done: error entry at a fetch or at the execute stage, or the
handler's effect and step 5. -/
theorem step_cases {s t : State} (h : step s = .next t) :
    s.status = .running ∧
    ((∃ e, t = s.setStatus (.stopped e) ∧
        (fetch s = .error e ∨ ∃ i, fetch s = .ok i ∧ exec i s = .next t ∧ HandlerError i e)) ∨
     (∃ i u, fetch s = .ok i ∧ exec i s = .next t ∧ t = u.advancePc ∧ HandlerEffect i s u)) := by
  cases hs : s.status with
  | stopped e => simp [step_of_stopped hs] at h
  | running =>
    refine ⟨rfl, ?_⟩
    cases hf : fetch s with
    | error e =>
      rw [step_of_fetch_error hs hf] at h
      cases h
      exact .inl ⟨e, rfl, .inl rfl⟩
    | ok i =>
      rw [step_of_fetch hs hf] at h
      rcases exec_effect i s with ⟨e, hi, he⟩ | ⟨u, he, hu⟩
      · rw [he] at h; cases h; exact .inl ⟨e, rfl, .inr ⟨i, rfl, he, hi⟩⟩
      · rw [he] at h; cases h; exact .inr ⟨i, u, rfl, he, rfl, hu⟩

/-- The handlers that succeed leave the status alone. -/
theorem HandlerEffect.status {i : Instr} {s u : State} (h : HandlerEffect i s u) : u.status = s.status := by
  rcases h with ⟨_, d, r, _, rfl⟩ | ⟨_, d, r, _, rfl⟩ | ⟨a, b, _, _, rfl⟩ | ⟨a, b, _, _, rfl⟩ | ⟨a, _, rfl⟩ | ⟨_, rfl⟩ <;> rfl

/-- Step 5 writes nothing but `pc`. -/
theorem advancePc_eq (s : State) : s.advancePc = s.setPc s.advancePc.pc := by
  rw [State.advancePc]; split <;> rfl

/-- A run whose first cycle gives a next state goes on from it. -/
theorem run_succ_of_next {s t : State} (n : Nat) (h : step s = .next t) :
    Sys2Proof.core.run (n + 1) s = Sys2Proof.core.run n t := by
  have h' : Sys2Proof.core.step s = .next t := h
  simp only [Host.Core.run, h']

/-- A run of a machine whose first cycle faults is that fault. -/
theorem run_succ_of_fault {s : State} {f : Fault} (n : Nat) (h : step s = .fault f) :
    Sys2Proof.core.run (n + 1) s = .fault f := by
  have h' : Sys2Proof.core.step s = .fault f := h
  simp only [Host.Core.run, h']

/-- No step is refused. -/
theorem step_not_refused (s : State) (r : Refusal) : step s ≠ .refused r := by
  cases hs : s.status with
  | stopped e => simp [step_of_stopped hs]
  | running =>
    cases hf : fetch s with
    | error e => simp [step_of_fetch_error hs hf]
    | ok i =>
      rw [step_of_fetch hs hf]
      rcases exec_effect i s with ⟨e, _, he⟩ | ⟨u, he, _⟩ <;> simp [he]

/-- A run may be cut after any number of cycles. -/
theorem run_add (n k : Nat) (s u : State) (h : Sys2Proof.core.run n s = .next u) :
    Sys2Proof.core.run (n + k) s = Sys2Proof.core.run k u := by
  induction n generalizing s with
  | zero => cases h; simp
  | succ n ih =>
    rw [Nat.add_right_comm]
    cases hs : step s with
    | next t =>
      rw [run_succ_of_next _ hs] at h ⊢
      exact ih t h
    | fault r => rw [run_succ_of_fault _ hs] at h; cases h
    | refused r => exact absurd hs (step_not_refused s r)

@[simp] theorem advancePc_status (s : State) : s.advancePc.status = s.status := by rw [advancePc_eq]; rfl

end Sys2Proof.Machine
end

