-- ==== Sys2Proof/Laws/PerInstr.lean ====
section
/-! SUPPORT. Facts about every instruction as syntax, one lemma per constructor. -/

namespace Sys2Proof.Laws.OperandFields

/-- The opcode and the triplet of an instruction give it back: no operand field is dropped or moved (R47). -/
def Statement (i : Instr) : Prop :=
  Instr.ofTriplet i.opcode i.triplet.1 i.triplet.2.1 i.triplet.2.2 = i

theorem nop : Statement .nop := rfl
theorem add (a b c : Word) : Statement (.add a b c) := rfl
theorem sub (a b c : Word) : Statement (.sub a b c) := rfl
theorem mult (a b c : Word) : Statement (.mult a b c) := rfl
theorem div (a b c : Word) : Statement (.div a b c) := rfl
theorem mod (a b c : Word) : Statement (.mod a b c) := rfl
theorem or (a b c : Word) : Statement (.or a b c) := rfl
theorem xor (a b c : Word) : Statement (.xor a b c) := rfl
theorem nor (a b c : Word) : Statement (.nor a b c) := rfl
theorem nand (a b c : Word) : Statement (.nand a b c) := rfl
theorem and (a b c : Word) : Statement (.and a b c) := rfl
theorem not (a b : Word) : Statement (.not a b) := rfl
theorem shiftl (a b c : Word) : Statement (.shiftl a b c) := rfl
theorem shiftr (a b c : Word) : Statement (.shiftr a b c) := rfl
theorem load (a b : Word) : Statement (.load a b) := rfl
theorem hpush : Statement .hpush := rfl
theorem hpop : Statement .hpop := rfl
theorem callr : Statement .callr := rfl
theorem ret : Statement .ret := rfl
theorem rstore (a b : Word) : Statement (.rstore a b) := rfl
theorem rcopy (a b : Word) : Statement (.rcopy a b) := rfl
theorem icopy (a b : Word) : Statement (.icopy a b) := rfl
theorem jmp (a : Word) : Statement (.jmp a) := rfl
theorem jmpz (a : Word) : Statement (.jmpz a) := rfl
theorem print (a b : Word) : Statement (.print a b) := rfl
theorem halt : Statement .halt := rfl

end Sys2Proof.Laws.OperandFields
end

