-- ==== Sys2Proof/Tests/Slice0.lean ====
section
/-! SUPPORT. Tests, with expected values from 95_test_vectors.md and the examples of the rules, and witnesses that the
hypotheses of the statements can be met together. -/

namespace Sys2Proof.Tests

open Sys2Proof.Machine Sys2Proof.Claims

/-! ## Every constructor's decoding, from words of 95_test_vectors.md and the REFMAP table (R45, R47, R52) -/

theorem test_decode_nop : decodeTableWord 64 0x0000FFFFFFFFFFFF = some (.nop) := by decide
theorem test_decode_add : decodeTableWord 64 0x0001000100020003 = some (.add 1 2 3) := by decide
theorem test_decode_sub : decodeTableWord 64 0x0002000000020000 = some (.sub 0 2 0) := by decide
theorem test_decode_mult : decodeTableWord 64 0x0003000100020003 = some (.mult 1 2 3) := by decide
theorem test_decode_div : decodeTableWord 64 0x0004000100050006 = some (.div 1 5 6) := by decide
theorem test_decode_mod : decodeTableWord 64 0x0005000100020004 = some (.mod 1 2 4) := by decide
theorem test_decode_or : decodeTableWord 64 0x0006000100020003 = some (.or 1 2 3) := by decide
theorem test_decode_xor : decodeTableWord 64 0x0007000100020003 = some (.xor 1 2 3) := by decide
theorem test_decode_nor : decodeTableWord 64 0x0008000100020003 = some (.nor 1 2 3) := by decide
theorem test_decode_nand : decodeTableWord 64 0x0009000100020003 = some (.nand 1 2 3) := by decide
theorem test_decode_and : decodeTableWord 64 0x000A000100020003 = some (.and 1 2 3) := by decide
theorem test_decode_not : decodeTableWord 64 0x000B00010002FFFF = some (.not 1 2) := by decide
theorem test_decode_shiftl : decodeTableWord 64 0x000C000100020003 = some (.shiftl 1 2 3) := by decide
theorem test_decode_shiftr : decodeTableWord 64 0x000D000100020003 = some (.shiftr 1 2 3) := by decide
theorem test_decode_load : decodeTableWord 64 0x000EBEEF00030000 = some (.load 0xBEEF 3) := by decide
theorem test_decode_hpush : decodeTableWord 64 0x000F000000000000 = some (.hpush) := by decide
theorem test_decode_hpop : decodeTableWord 64 0x0010000000000000 = some (.hpop) := by decide
theorem test_decode_callr : decodeTableWord 64 0x0011000000000000 = some (.callr) := by decide
theorem test_decode_return : decodeTableWord 64 0x0012000000000000 = some (.ret) := by decide
theorem test_decode_rstore : decodeTableWord 64 0x0013000300FF0000 = some (.rstore 3 255) := by decide
theorem test_decode_rcopy : decodeTableWord 64 0x001400FF00040000 = some (.rcopy 255 4) := by decide
theorem test_decode_icopy : decodeTableWord 64 0x0015001D000104D2 = some (.icopy 29 1) := by decide
theorem test_decode_jmp : decodeTableWord 64 0x0016000300000000 = some (.jmp 3) := by decide
theorem test_decode_jmpz : decodeTableWord 64 0x0017000800000000 = some (.jmpz 8) := by decide
theorem test_decode_print : decodeTableWord 64 0x001800FF00020000 = some (.print 255 2) := by decide
theorem test_decode_halt : decodeTableWord 64 0x0019FFFFFFFFFFFF = some (.halt) := by decide
theorem test_decode_unmapped : decodeTableWord 64 0x001A000000000000 = none := by decide
/-- Under another dictionary the same word is another instruction (program P6). -/
theorem test_decode_other_map : decode [(.load, 16), (.halt, 65535)] (Slot.ofImage 0x0010004800000000) = .ok (.load 0x48 0) := by
  decide
theorem test_encode_load : (encode refmap (.load 46368 2)).map Slot.image = some 0x000EB52000020000 := by decide

/-! ## Well-formedness: an ill-formed term for each check -/

theorem test_ill_formed_no_entry : (Instr.add 1 2 3).wellFormed [] = false := by decide
theorem test_ill_formed_wide_code : Instr.halt.wellFormed [(.halt, 70000)] = false := by decide

/-! ## The dictionary (95_test_vectors.md 2.1) -/

theorem test_build_unknown : build [("ADD", 1), ("FOO", 2), ("BAR", 3)] = .error (.unknownSymbol "FOO") := by decide
theorem test_build_case : build [("add", 1)] = .error (.unknownSymbol "add") := by decide
theorem test_build_code : build [("ADD", 1), ("SUB", 1), ("BAR", 3)] = .error (.duplicateCode 1) := by decide
theorem test_build_symbol : build [("ADD", 1), ("ADD", 1)] = .error (.duplicateSymbol .add) := by decide
theorem test_build_wide : build [("HALT", 70000)] = .ok [(.halt, 70000)] := by decide
theorem test_lookup_missing : numericToSymbolic [(.load, 16), (.halt, 65535)] 0 = .error (.numericKey 0) := by decide
theorem test_lookup_symbol_missing : symbolicToNumeric [(.load, 16)] .add = .error (.symbolicKey .add) := by decide

/-! ## One step of each instruction -/

/-- The reference machine with given registers and RAM and one loaded instruction. -/
def start (x ram : Mem) (image : Nat) : State :=
  { State.reset with x := x, ram := ram }.withFetchWord 64 image

/-- A view of the state after one step, if there is one. -/
def after {α : Type} (s : State) (f : State → α) : Option α :=
  match step s with
  | .next t => some (f t)
  | .fault _ => none
  | .refused _ => none

/-- Register 3 and the zero flag after one step, from given `x[1]` and `x[2]`. -/
def result (image : Nat) (x : Mem) : Option (Word × Bool) := after (start x [] image) fun t => (t.reg 3, t.zf)

/-- The error a step stops with. -/
def errorOf (s : State) : Option Error :=
  match step s with
  | .next t =>
    match t.status with
    | .stopped e => some e
    | .running => none
  | .fault _ => none
  | .refused _ => none

theorem test_add_wraps : result 0x0001000100020003 [(1, 65535), (2, 1)] = some (0, true) := by decide
theorem test_add_46368 : result 0x0001000100020003 [(1, 46368), (2, 28657)] = some (9489, false) := by decide
theorem test_sub_wraps : result 0x0002000100020003 [(1, 3), (2, 5)] = some (65534, false) := by decide
theorem test_sub_equal : result 0x0002000100020003 [(1, 7), (2, 7)] = some (0, true) := by decide
theorem test_mult_low_half : result 0x0003000100020003 [(1, 300), (2, 300)] = some (24464, false) := by decide
theorem test_mult_zero : result 0x0003000100020003 [(1, 256), (2, 256)] = some (0, true) := by decide
theorem test_div_unsigned : result 0x0004000100020003 [(1, 65535), (2, 2)] = some (32767, false) := by decide
theorem test_mod_unsigned : result 0x0005000100020003 [(1, 32768), (2, 3)] = some (2, false) := by decide
theorem test_or_bits : result 0x0006000100020003 [(1, 0x0F0F), (2, 0x00FF)] = some (0x0FFF, false) := by decide
theorem test_xor_bits : result 0x0007000100020003 [(1, 0x0F0F), (2, 0x00FF)] = some (0x0FF0, false) := by decide
theorem test_nor_bits : result 0x0008000100020003 [(1, 0x0F0F), (2, 0x00FF)] = some (0xF000, false) := by decide
theorem test_nand_bits : result 0x0009000100020003 [(1, 0x0F0F), (2, 0x00FF)] = some (0xFFF0, false) := by decide
theorem test_and_bits : result 0x000A000100020003 [(1, 0xAAAA), (2, 0x5555)] = some (0, true) := by decide
theorem test_shiftl_top_bit_lost : result 0x000C000100020003 [(1, 0x8001), (2, 1)] = some (0x0002, false) := by decide
theorem test_shiftr_zero_fill : result 0x000D000100020003 [(1, 0x8000), (2, 1)] = some (0x4000, false) := by decide
theorem test_div_by_zero : errorOf (start [(1, 9)] [] 0x0004000100020003) =
    some (.executionError .div (.arithmeticError .divideByZero)) := by decide
theorem test_mod_by_zero : errorOf (start [] [] 0x0005000100020003) =
    some (.executionError .mod (.arithmeticError .moduloByZero)) := by decide
theorem test_shiftl_count_16 : errorOf (start [(1, 1), (2, 16)] [] 0x000C000100020003) =
    some (.executionError .shiftl (.arithmeticError (.shiftCount 16))) := by decide
theorem test_shiftr_count_65535 : errorOf (start [(2, 65535)] [] 0x000D000100020003) =
    some (.executionError .shiftr (.arithmeticError (.shiftCount 65535))) := by decide
/-- `OR r4, r4, r9` is the register move. -/
theorem test_or_moves : after (start [(4, 0x00F0)] [] 0x0006000400040009) (fun t => (t.reg 9, t.reg 4)) = some (0xF0, 0xF0) := by
  decide
/-- `DIV r0, r1, r42` with `x[1] = 2` reports the destination, after the function. -/
theorem test_destination_last : errorOf (start [(1, 2)] [] 0x000400000001002A) =
    some (.executionError .div (.outOfRangeAccess .reg 42)) := by decide
theorem test_not_ignores_c : after (start [(1, 0x00FF)] [] 0x000B00010002FFFF) (fun t => (t.reg 2, t.zf, t.pc)) =
    some (0xFF00, false, 1) := by decide
theorem test_not_checks_source_first : errorOf (start [] [] 0x000B002000210000) =
    some (.executionError .not (.outOfRangeAccess .reg 32)) := by decide
theorem test_load : after (start [] [] 0x000EBEEF00030000) (fun t => (t.reg 3, t.zf)) = some (0xBEEF, false) := by decide
theorem test_load_out_of_range : errorOf (start [] [] 0x000E000100200000) =
    some (.executionError .load (.outOfRangeAccess .reg 32)) := by decide
theorem test_rstore : after (start [(3, 0xBEEF)] [] 0x0013000300FF0000) (fun t => t.ram) = some [(255, 0xBEEF)] := by decide
theorem test_rstore_register_first : errorOf (start [] [] 0x0013002001000000) =
    some (.executionError .rstore (.outOfRangeAccess .reg 32)) := by decide
theorem test_rcopy : after (start [] [(255, 0xBEEF)] 0x001400FF00040000) (fun t => t.reg 4) = some 0xBEEF := by decide
theorem test_rcopy_address_first : errorOf (start [] [] 0x0014010000280000) =
    some (.executionError .rcopy (.outOfRangeAccess .ram 256)) := by decide
/-- `ICOPY 2, r1` at slot 0 reads its own third word. -/
theorem test_icopy_own_third_word : after (start [] [] 0x00150002000104D2) (fun t => t.reg 1) = some 1234 := by decide
theorem test_icopy_out_of_range : errorOf (start [] [] 0x0015030000280000) =
    some (.executionError .icopy (.outOfRangeAccess .ostore 768)) := by decide
theorem test_jmp : after (start [] [] 0x0016012C00000000) (fun t => (t.pc, t.bt, t.status)) = some (300, true, .running) := by
  decide
theorem test_jmpz_taken : after ((start [] [] 0x0017000800000000).setZf true) (fun t => (t.pc, t.bt, t.zf)) =
    some (8, true, true) := by decide
theorem test_jmpz_not_taken : after (start [] [] 0x0017000800000000) (fun t => (t.pc, t.bt)) = some (1, false) := by decide
theorem test_nop : after (start [] [] 0x0000FFFFFFFFFFFF) (fun t => (t.pc, t.bt, t.status)) = some (1, false, .running) := by
  decide
theorem test_print_hi : after (start [] [(16, 0x0048), (17, 0x0069)] 0x0018001000020000) (fun t => t.out) =
    some [[0x48, 0x69]] := by decide
theorem test_print_exact_sum : errorOf (start [] [] 0x0018FFFFFFFF0000) =
    some (.executionError .print (.outOfRangeAccess .ram 65535)) := by decide
theorem test_utf16_pair : decodeUtf16 [0xD83D, 0xDE00, 0xDC00, 0x41] = [0x1F600, 0xFFFD, 0x41] := by decide
theorem test_utf16_high_high_low : decodeUtf16 [0xD800, 0xD800, 0xDC00] = [0xFFFD, 0x10000] := by decide
theorem test_hpush : errorOf (start [] [] 0x000F000100020003) = some (.unimplementedOpcode .hpush) := by decide
theorem test_hpop : errorOf (start [] [] 0x0010000000000000) = some (.unimplementedOpcode .hpop) := by decide
theorem test_callr : errorOf (start [] [] 0x0011000A00000000) = some (.unimplementedOpcode .callr) := by decide
theorem test_return : errorOf (start [] [] 0x0012000000000000) = some (.unimplementedOpcode .ret) := by decide
theorem test_halt_keeps_pc : after (start [] [] 0x0019FFFFFFFFFFFF) (fun t => (t.pc, t.status)) =
    some (0, .stopped (.unimplementedOpcode .halt)) := by decide

/-! ## The engine's errors and their priority (95_test_vectors.md 2.8) -/

/-- A machine with 4 slots, a given operand-store length, and one opcode word at slot 3. -/
def short (ostoreLen : Nat) (w : Word) : State :=
  { State.reset with
    cfg := { refSizes with istoreLen := 4, ostoreLen := ostoreLen, opmap := refmap }, istore := [(3, w)], pc := 3 }

theorem test_fetch_past_end : errorOf (State.reset.setPc 256) = some (.outOfRangeFetchIstore 256) := by decide
theorem test_decode_before_operands : errorOf (short 9 256) = some (.decodeError 256) := by decide
theorem test_operands_before_dispatch : errorOf (short 9 25) = some (.outOfRangeFetchOstore 9 .halt) := by decide
theorem test_partial_triplet : errorOf (short 11 4) = some (.outOfRangeFetchOstore 9 .div) := by decide
theorem test_whole_triplet : after (short 12 0) (fun t => t.pc) = some 4 := by decide
/-- A failing cycle keeps `bt` (C2). -/
theorem test_failing_cycle_keeps_bt : after ((start [] [] 0x0019000000000000).setBt true) (fun t => t.bt) = some true := by
  decide

/-! ## Construction -/

theorem test_construct_reference :
    construct (refmap.map fun e => (e.1.name, e.2)) refSizes [] [] = .ok State.reset := by decide

/-! ## Witnesses: states and operands that meet each statement's hypotheses, clause by clause, at the boundaries -/

/-- The reference machine with one instruction loaded at slot 0. -/
def loaded (image : Nat) : State := State.reset.withFetchWord 64 image

theorem witness_DecodeOfEncodeIsTheInstruction :
    OpMap.valid refmap ∧ (Instr.add 65535 0 31).wellFormed refmap = true := by decide
theorem witness_EncodeOfDecodedSlotKeepsOpcodeWord :
    OpMap.valid refmap ∧ decode refmap (Slot.ofImage 0x000B00010002FFFF) = .ok (.not 1 2) := by decide
theorem witness_DictionaryLookupsAreInverse :
    build [("ADD", 1)] = .ok [(.add, 1)] ∧ ∀ s ∈ Opcode.all, s.name ≠ "FOO" := by decide
theorem witness_BuildAcceptsExactlyValidLists : build [("NOP", 500), ("HALT", 7)] = .ok [(.nop, 500), (.halt, 7)] := by decide
theorem witness_BuildReportsFirstBadEntry :
    build [("ADD", 1)] = .ok [(.add, 1)] ∧ (∀ s ∈ Opcode.all, s.name ≠ "FOO") ∧
    (Opcode.name .add = "ADD" ∧ "ADD" ∈ [("ADD", 1)].map Prod.fst) ∧
    (Opcode.name .sub = "SUB" ∧ "SUB" ∉ [("ADD", 1)].map Prod.fst ∧ 1 ∈ [("ADD", 1)].map Prod.snd) := by decide
theorem witness_WideCodesNeverDecode :
    OpMap.valid [(.halt, 65536)] ∧ symbolicToNumeric [(.halt, 65536)] .halt = .ok 65536 ∧ 65536 ≤ 65536 := by decide
theorem witness_OpcodeWordIsInOneOfThreeClasses :
    (short 12 0).status = .running ∧ (short 12 0).pc < (short 12 0).cfg.istoreLen ∧
    3 * (short 12 0).pc + 3 ≤ (short 12 0).cfg.ostoreLen := by decide
theorem witness_ReferenceImagesMatchTheTable :
    0x0019FFFFFFFFFFFF < 2 ^ 64 ∧ 0x0019FFFFFFFFFFFF &&& 0xFFFF000000000000 = 25 * 2 ^ 48 := by decide
theorem witness_UnusedTripletWordsAreIgnored :
    decode refmap { op := 22, a := 3, b := 0xFFFF, c := 0xFFFF } = .ok (.jmp 3) := by decide
theorem witness_StepRunsTheDecodedInstruction :
    (short 12 0).status = .running ∧ (short 12 0).pc < (short 12 0).cfg.istoreLen ∧
    3 * (short 12 0).pc + 3 ≤ (short 12 0).cfg.ostoreLen ∧
    decode (short 12 0).cfg.opmap ((short 12 0).slotAt 3) = .ok .nop := by decide
theorem witness_LoadedImageIsTheNextInstruction :
    0x0019FFFFFFFFFFFF < 2 ^ 64 ∧ decode (State.reset.setPc 300).cfg.opmap (Slot.ofImage 0x0019FFFFFFFFFFFF) = .ok .halt := by
  decide
/-- Both clauses, at the last slot and one past it. -/
theorem witness_FetchPastInstructionStoreFails :
    (State.reset.setPc 256).status = .running ∧ (State.reset.setPc 256).cfg.istoreLen ≤ (State.reset.setPc 256).pc ∧
    (State.reset.setPc 255).pc < (State.reset.setPc 255).cfg.istoreLen ∧
    ∃ t, step (State.reset.setPc 255) = .next t := by
  exact ⟨rfl, by decide, by decide, _, rfl⟩
/-- The first code past the dictionary, and the last one in it. -/
theorem witness_UnmappedWordIsDecodeError :
    (numericToSymbolic refmap 25 = .ok .halt ∧ ∃ t, step (short 12 25) = .next t) ∧
    (short 9 26).status = .running ∧ (short 9 26).pc < (short 9 26).cfg.istoreLen ∧
    ∀ e ∈ (short 9 26).cfg.opmap, e.2 ≠ (Mem.read (short 9 26).istore (short 9 26).pc).toNat :=
  ⟨⟨by decide, _, rfl⟩, by decide⟩
/-- A triplet one word too short, and one that just fits. -/
theorem witness_ShortTripletIsOutOfRangeFetch :
    (short 11 25).status = .running ∧ (short 11 25).pc < (short 11 25).cfg.istoreLen ∧
    numericToSymbolic (short 11 25).cfg.opmap (Mem.read (short 11 25).istore (short 11 25).pc).toNat = .ok .halt ∧
    (short 11 25).cfg.ostoreLen < 3 * (short 11 25).pc + 3 ∧
    3 * (short 12 25).pc + 3 ≤ (short 12 25).cfg.ostoreLen := by decide
theorem witness_StoppedMachineNeverRuns :
    (State.reset.setStatus (.stopped (.decodeError 26))).status = .stopped (.decodeError 26) := by decide
theorem witness_EveryRunningCycleAnswers : State.reset.status = .running := by decide
theorem witness_FailingCycleCommitsNothing :
    ∃ t, step (loaded 0x0019000000000000) = .next t ∧ t.status = .stopped (.unimplementedOpcode .halt) :=
  ⟨_, rfl, by decide⟩
/-- A redirecting cycle and an advancing one. -/
theorem witness_SuccessfulCycleAdvancesOrRedirects :
    (∃ t, step (loaded 0x0016000300000000) = .next t ∧ t.status = .running ∧ t.pc = 3) ∧
    (∃ t, step (loaded 0x0017000300000000) = .next t ∧ t.status = .running ∧ t.pc = 1) :=
  ⟨⟨_, rfl, by decide⟩, ⟨_, rfl, by decide⟩⟩
/-- A successful cycle and a failing one. -/
theorem witness_BranchTakenFlagIsNeverRead :
    (∃ t, step (loaded 0x0016000300000000) = .next t ∧ t.status = .running) ∧
    (∃ t, step (loaded 0x001A000000000000) = .next t ∧ t.status = .stopped (.decodeError 26)) :=
  ⟨⟨_, rfl, by decide⟩, ⟨_, rfl, by decide⟩⟩
theorem witness_DictionaryAndSizesNeverChange : ∃ t, step (loaded 0x0013000000100000) = .next t ∧ t.pc = 1 :=
  ⟨_, rfl, by decide⟩
theorem witness_StoresAndStacksAreNeverWritten : ∃ t, step (loaded 0x0011000A00000000) = .next t ∧ t.pc = 0 :=
  ⟨_, rfl, by decide⟩
/-- A PRINT that succeeds, one that fails (its range leaves RAM), and another instruction. -/
theorem witness_OnlySuccessfulPrintEmits :
    (∃ t, step (loaded 0x0018000000010000) = .next t ∧ t.status = .running ∧ t.out = [[0]]) ∧
    (∃ t, step (loaded 0x0018010000010000) = .next t ∧ t.status ≠ .running) ∧
    (∃ t, Sys2Proof.core.run 1 (loaded 0) = .next t ∧ t.pc = 1) :=
  ⟨⟨_, rfl, by decide⟩, ⟨_, rfl, by decide⟩, ⟨_, rfl, by decide⟩⟩
/-- One instruction for each clause: not a register writer, not a transform, not a store, not a PRINT. -/
theorem witness_OnlyNamedOpcodesWrite :
    (∃ t, exec (.rstore 0 0) State.reset = .next t ∧ (Instr.rstore 0 0).opcode.writesRegister = false) ∧
    (∃ t, exec (.load 0 0) State.reset = .next t ∧ (Instr.load 0 0).opcode.isTransform = false) ∧
    (∃ t, exec (.print 0 0) State.reset = .next t ∧ (Instr.print 0 0).opcode ≠ .rstore) ∧
    (∃ t, exec (.add 0 0 0) State.reset = .next t ∧ (Instr.add 0 0 0).opcode ≠ .print) :=
  ⟨⟨_, rfl, by decide⟩, ⟨_, rfl, by decide⟩, ⟨_, rfl, by decide⟩, ⟨_, rfl, by decide⟩⟩

/-- A state that holds something in every region the invariant speaks of, and sits at the `pc` bound. -/
def busy : State :=
  { State.reset with
    x := [(0, 1), (31, 65535)], ram := [(255, 7)], istore := [(0, 22)], ostore := [(2, 3), (767, 1)],
    dstack := [(5, 5)], cstack := [(255, 1)], pc := 255, out := [[0x48], []] }

theorem witness_InvariantIsKeptByEveryStep : busy.Inv ∧ ∃ t, step busy = .next t ∧ t.pc = 256 :=
  ⟨⟨by decide, by decide, by decide, by decide, by decide, by decide, by decide, by decide, by decide⟩, _, rfl, by decide⟩
/-- Both clauses: a list that does not build, and images that exactly fill their stores. -/
theorem witness_ConstructionLoadsAndResets :
    build [("FOO", 2)] = .error (.unknownSymbol "FOO") ∧ build [("HALT", 7)] = .ok [(.halt, 7)] ∧
    [(7 : Word)].length ≤ 1 ∧ [(1 : Word), 2, 3].length ≤ 3 := by decide

/-- The clauses of the binary rules: all registers at the last index, and each index one past it. -/
theorem witness_binary_registers :
    (31 : Word).toNat < State.reset.cfg.nregs ∧ State.reset.cfg.nregs ≤ (32 : Word).toNat ∧ never 65535 65535 = none := by
  decide
/-- The arithmetic clauses: divisor 1 and 0, count 15 and 16. -/
theorem witness_binary_arithmetic :
    (let s := State.reset.setX [(1, 1), (2, 15), (3, 16)]
     (s.reg 1).toNat = 1 ∧ (s.reg 0).toNat = 0 ∧ (s.reg 2).toNat = 15 ∧ (s.reg 3).toNat = 16) := by decide
theorem witness_spells : OpMap.valid refmap ∧ symbolicToNumeric refmap .add = .ok (1 : Word).toNat := by decide
theorem witness_NotIsComplement :
    (31 : Word).toNat < State.reset.cfg.nregs ∧ State.reset.cfg.nregs ≤ (32 : Word).toNat := by decide
theorem witness_LoadWritesTheLiteral :
    (31 : Word).toNat < State.reset.cfg.nregs ∧ State.reset.cfg.nregs ≤ (32 : Word).toNat := by decide
theorem witness_RstoreWritesOneRamWord :
    (31 : Word).toNat < State.reset.cfg.nregs ∧ (255 : Word).toNat < State.reset.cfg.ramLen ∧
    State.reset.cfg.nregs ≤ (32 : Word).toNat ∧ State.reset.cfg.ramLen ≤ (256 : Word).toNat := by decide
theorem witness_RcopyReadsOneRamWord :
    (255 : Word).toNat < State.reset.cfg.ramLen ∧ (31 : Word).toNat < State.reset.cfg.nregs ∧
    State.reset.cfg.ramLen ≤ (256 : Word).toNat ∧ State.reset.cfg.nregs ≤ (32 : Word).toNat := by decide
theorem witness_IcopyReadsOneOperandStoreWord :
    (767 : Word).toNat < State.reset.cfg.ostoreLen ∧ (31 : Word).toNat < State.reset.cfg.nregs ∧
    State.reset.cfg.ostoreLen ≤ (768 : Word).toNat ∧ State.reset.cfg.nregs ≤ (32 : Word).toNat := by decide
theorem witness_StoreThenCopyGivesTheStoredWord :
    (0 : Word).toNat < busy.cfg.nregs ∧ (31 : Word).toNat < busy.cfg.nregs ∧ (255 : Word).toNat < busy.cfg.ramLen := by decide
theorem witness_JmpzRedirectsOnZero : (State.reset.setZf true).zf = true ∧ State.reset.zf = false := by decide
theorem witness_JumpToItselfNeverEnds :
    let s := loaded 0x0016000000000000
    s.status = .running ∧ s.pc < s.cfg.istoreLen ∧ 3 * s.pc + 3 ≤ s.cfg.ostoreLen ∧
    decode s.cfg.opmap (s.slotAt s.pc) = .ok (.jmp 0) ∧ (0 : Word).toNat = s.pc := by decide
theorem witness_FallingThroughTheEndStops :
    let s := State.reset.setPc 255
    s.pc + 1 = s.cfg.istoreLen ∧ ∃ t, step s = .next t ∧ t.status = .running ∧ t.bt = false :=
  ⟨by decide, _, rfl, by decide⟩
/-- The range that just fits, the empty range at the end, and the range one word too long. -/
theorem witness_PrintEmitsTheDecodedRange :
    (255 : Word).toNat + (1 : Word).toNat ≤ State.reset.cfg.ramLen ∧
    (256 : Word).toNat + (0 : Word).toNat ≤ State.reset.cfg.ramLen ∧
    State.reset.cfg.ramLen < (255 : Word).toNat + (2 : Word).toNat := by decide
theorem witness_PrintHiEmitsHi :
    let s := State.reset.setRam [(254, 0x48), (255, 0x69)]
    (254 : Word).toNat + 2 ≤ s.cfg.ramLen ∧ Mem.read s.ram (254 : Word).toNat = 0x48 ∧
    Mem.read s.ram ((254 : Word).toNat + 1) = 0x69 := by decide
theorem witness_HaltIsTheNormalStop :
    let s := loaded 0x0019000000000000
    s.status = .running ∧ s.pc < s.cfg.istoreLen ∧ 3 * s.pc + 3 ≤ s.cfg.ostoreLen ∧
    decode s.cfg.opmap (s.slotAt s.pc) = .ok .halt := by decide
theorem witness_UnimplementedOpcodesFail :
    let s := loaded 0x0012FFFFFFFFFFFF
    s.status = .running ∧ s.pc < s.cfg.istoreLen ∧ 3 * s.pc + 3 ≤ s.cfg.ostoreLen ∧
    numericToSymbolic s.cfg.opmap (Mem.read s.istore s.pc).toNat = .ok .ret := by decide
/-- A run of one successful cycle that then ends. -/
theorem witness_EndOfRunIsUnique : ∃ t,
    EndsAfter (State.reset.setPc 255) 1 (.outOfRangeFetchIstore 256) t ∧ t.pc = 256 :=
  ⟨_, ⟨_, rfl, by decide, rfl, rfl⟩, by decide⟩

end Sys2Proof.Tests
end

/-! # Proofs for 10_state.md: what a cycle may write, what it never reads, and the invariant -/

namespace Sys2Proof.Machine

open Sys2Proof.Claims

/-! ## What step 5 leaves alone -/

@[simp] theorem advancePc_cfg (s : State) : s.advancePc.cfg = s.cfg := by rw [advancePc_eq]; rfl
@[simp] theorem advancePc_x (s : State) : s.advancePc.x = s.x := by rw [advancePc_eq]; rfl
@[simp] theorem advancePc_reg (s : State) (i : Nat) : s.advancePc.reg i = s.reg i := by rw [advancePc_eq]; rfl
@[simp] theorem advancePc_zf (s : State) : s.advancePc.zf = s.zf := by rw [advancePc_eq]; rfl
@[simp] theorem advancePc_ram (s : State) : s.advancePc.ram = s.ram := by rw [advancePc_eq]; rfl
@[simp] theorem advancePc_out (s : State) : s.advancePc.out = s.out := by rw [advancePc_eq]; rfl

theorem sameRest_advancePc {s u : State} (h : SameRest s u) : SameRest s u.advancePc := by
  rw [advancePc_eq]
  exact ⟨h.cfg, h.dsp, h.csp, h.dstack, h.cstack, h.istore, h.ostore, h.status⟩

/-! ## What each handler effect does to each field: unchanged, or written by a named opcode -/

/-- Who may have written what when the handler of `i` has taken `s` to `u` (R11, R13, R19, R20, table of R30); after step 5
`pc` is the next slot or a jump's target word (R66). -/
structure Writes (i : Instr) (s u : State) : Prop where
  x : u.x = s.x ∨ (i.opcode.writesRegister = true ∧ ∃ d v, d < s.cfg.nregs ∧ u.x = Mem.write s.x d v)
  zf : u.zf = s.zf ∨ i.opcode.isTransform = true
  ram : u.ram = s.ram ∨ (i.opcode = .rstore ∧ ∃ a v, a < s.cfg.ramLen ∧ u.ram = Mem.write s.ram a v)
  out : u.out = s.out ∨ (i.opcode = .print ∧ ∃ ws, u.out = s.out ++ [decodeUtf16 ws])
  pc : u.advancePc.pc = s.pc + 1 ∨ ∃ a : Word, u.advancePc.pc = a.toNat

theorem writesRegister_of_isTransform {op : Opcode} (h : op.isTransform = true) : op.writesRegister = true := by
  simp [Opcode.writesRegister, h]

theorem writesRegister_of_mem {op : Opcode} (h : op ∈ [Opcode.load, .rcopy, .icopy]) : op.writesRegister = true := by
  simp only [List.mem_cons, List.not_mem_nil, or_false] at h
  obtain rfl | rfl | rfl := h <;> rfl

namespace HandlerEffect

variable {i : Instr} {s u : State}

theorem writes (h : HandlerEffect i s u) : Writes i s u := by
  obtain ⟨hi, d, r, hd, rfl⟩ | ⟨hi, d, v, hd, rfl⟩ | ⟨a, b, rfl, hb, rfl⟩ | ⟨a, b, rfl, _, rfl⟩ | ⟨a, _, rfl⟩ |
    ⟨_, rfl⟩ := h
  case inl => exact ⟨.inr ⟨writesRegister_of_isTransform hi, d, r, hd, rfl⟩, .inr hi, .inl rfl, .inl rfl, .inl rfl⟩
  case inr.inl => exact ⟨.inr ⟨writesRegister_of_mem hi, d, v, hd, rfl⟩, .inl rfl, .inl rfl, .inl rfl, .inl rfl⟩
  case inr.inr.inl => exact ⟨.inl rfl, .inl rfl, .inr ⟨rfl, _, _, hb, rfl⟩, .inl rfl, .inl rfl⟩
  case inr.inr.inr.inl => exact ⟨.inl rfl, .inl rfl, .inl rfl, .inr ⟨rfl, _, rfl⟩, .inl rfl⟩
  case inr.inr.inr.inr.inl => exact ⟨.inl rfl, .inl rfl, .inl rfl, .inl rfl, .inr ⟨a, rfl⟩⟩
  case inr.inr.inr.inr.inr => exact ⟨.inl rfl, .inl rfl, .inl rfl, .inl rfl, .inl rfl⟩

theorem sameRest (h : HandlerEffect i s u) : SameRest s u := by
  obtain ⟨_, d, r, _, rfl⟩ | ⟨_, d, v, _, rfl⟩ | ⟨a, b, _, _, rfl⟩ | ⟨a, b, _, _, rfl⟩ | ⟨a, _, rfl⟩ | ⟨_, rfl⟩ := h <;>
    exact ⟨rfl, rfl, rfl, rfl, rfl, rfl, rfl, rfl⟩

end HandlerEffect

/-- A step leaves everything that no handler writes, the status apart (R17, R18, R115, R142). -/
theorem step_sameRest {s t : State} (h : step s = .next t) : SameRest s (t.setStatus s.status) := by
  obtain ⟨-, ⟨e, rfl, -⟩ | ⟨i, u, -, -, rfl, hu⟩⟩ := step_cases h
  · exact ⟨rfl, rfl, rfl, rfl, rfl, rfl, rfl, rfl⟩
  · obtain ⟨hcfg, hdsp, hcsp, hdstack, hcstack, histore, hostore, -⟩ := sameRest_advancePc hu.sameRest
    exact ⟨hcfg, hdsp, hcsp, hdstack, hcstack, histore, hostore, rfl⟩

/-! ## The invariant -/

theorem unitScalar_isScalar (u : Word) : isScalar (unitScalar u) := by
  have := u.isLt
  simp only [unitScalar, isHighSurrogate, isLowSurrogate, Bool.or_eq_true, decide_eq_true_eq, isScalar]
  split <;> omega

theorem pairScalar_isScalar {u v : Word} (hu : isHighSurrogate u = true) (hv : isLowSurrogate v = true) :
    isScalar (pairScalar u v) := by
  simp only [isHighSurrogate, isLowSurrogate, decide_eq_true_eq] at hu hv
  unfold pairScalar
  omega

/-- Lossy decoding yields Unicode scalar values only (R105). -/
theorem isScalar_of_mem_decodeUtf16 {us : List Word} : ∀ c ∈ decodeUtf16 us, isScalar c := by
  fun_induction decodeUtf16 us with
  | case1 => simp
  | case2 u => simpa using unitScalar_isScalar u
  | case3 u v us h ih =>
    obtain ⟨hu, hv⟩ := Bool.and_eq_true_iff.1 h
    exact List.forall_mem_cons.2 ⟨pairScalar_isScalar hu hv, ih⟩
  | case4 u v us _ ih => exact List.forall_mem_cons.2 ⟨unitScalar_isScalar u, ih⟩

/-- The invariant does not speak of the status, so error entry keeps it. -/
theorem State.Inv.setStatus {s : State} (h : s.Inv) (st : Status) : (s.setStatus st).Inv :=
  ⟨h.dictionary, h.regs, h.ram, h.istore, h.ostore, h.dstack, h.cstack, h.pcBound, h.text⟩

namespace HandlerEffect

variable {i : Instr} {s u : State}

theorem regs_fits (h : HandlerEffect i s u) (hs : Mem.fits s.x s.cfg.nregs) : Mem.fits u.x s.cfg.nregs := by
  obtain hx | ⟨-, d, v, hd, hx⟩ := h.writes.x <;> rw [hx]
  · exact hs
  · exact Mem.write_fits hs hd v

theorem ram_fits (h : HandlerEffect i s u) (hs : Mem.fits s.ram s.cfg.ramLen) : Mem.fits u.ram s.cfg.ramLen := by
  obtain hr | ⟨-, a, v, ha, hr⟩ := h.writes.ram <;> rw [hr]
  · exact hs
  · exact Mem.write_fits hs ha v

theorem text (h : HandlerEffect i s u) (hs : ∀ t ∈ s.out, ∀ c ∈ t, isScalar c) :
    ∀ t ∈ u.out, ∀ c ∈ t, isScalar c := by
  obtain ho | ⟨-, ws, ho⟩ := h.writes.out <;> rw [ho]
  · exact hs
  · exact List.forall_mem_append.2 ⟨hs, List.forall_mem_singleton.2 isScalar_of_mem_decodeUtf16⟩

/-- A fetched slot is below ISTORE_LEN, so the next one is at most ISTORE_LEN; a target is one word (R12). -/
theorem pcBound (h : HandlerEffect i s u) (hs : s.pc < s.cfg.istoreLen) :
    u.advancePc.pc ≤ max s.cfg.istoreLen 65535 := by
  obtain hp | ⟨a, hp⟩ := h.writes.pc
  · omega
  · have := a.isLt
    omega

/-- A handler's success and step 5 keep the invariant, when the cycle's slot was fetched. -/
theorem inv (h : HandlerEffect i s u) (hs : s.Inv) (hpc : s.pc < s.cfg.istoreLen) : u.advancePc.Inv := by
  obtain ⟨hcfg, -, -, hdstack, hcstack, histore, hostore, -⟩ := sameRest_advancePc h.sameRest
  constructor
  case dictionary => rw [hcfg]; exact hs.dictionary
  case regs => rw [hcfg, advancePc_x]; exact h.regs_fits hs.regs
  case ram => rw [hcfg, advancePc_ram]; exact h.ram_fits hs.ram
  case istore => rw [hcfg, histore]; exact hs.istore
  case ostore => rw [hcfg, hostore]; exact hs.ostore
  case dstack => rw [hcfg, hdstack]; exact hs.dstack
  case cstack => rw [hcfg, hcstack]; exact hs.cstack
  case pcBound => rw [hcfg]; exact h.pcBound hpc
  case text => rw [advancePc_out]; exact h.text hs.text

end HandlerEffect

/-! ## What no cycle reads -/

/-- The branch-taken flag is cleared before a handler runs, so its old value matters only to error entry, which keeps it. -/
theorem runHandler_setBt (op : Opcode) (h : State → Except Cause State) (s : State) (b : Bool) :
    (∃ u, h (s.setBt false) = .ok u ∧ runHandler op h s = .next u.advancePc ∧
      runHandler op h (s.setBt b) = .next u.advancePc) ∨
    (∃ e, runHandler op h s = .next (s.setStatus (.stopped e)) ∧
      runHandler op h (s.setBt b) = .next ((s.setStatus (.stopped e)).setBt b)) := by
  obtain ⟨u, hu, hs⟩ | ⟨c, hc, hs⟩ := runHandler_cases op h s
  · exact .inl ⟨u, hu, hs, runHandler_ok (s := s.setBt b) hu⟩
  · exact .inr ⟨_, hs, runHandler_error (s := s.setBt b) hc⟩

/-- The fields no handler reads or writes: the stacks with their pointers (R15, R16) and the run status (R21). -/
structure Idle where
  dsp : Nat
  csp : Nat
  dstack : Mem
  cstack : Mem
  status : Status

def State.withIdle (s : State) (v : Idle) : State :=
  { s with dsp := v.dsp, csp := v.csp, dstack := v.dstack, cstack := v.cstack, status := v.status }

def State.idle (s : State) : Idle :=
  { dsp := s.dsp, csp := s.csp, dstack := s.dstack, cstack := s.cstack, status := s.status }

@[simp] theorem State.withIdle_cfg (s : State) (v : Idle) : (s.withIdle v).cfg = s.cfg := rfl
@[simp] theorem State.withIdle_zf (s : State) (v : Idle) : (s.withIdle v).zf = s.zf := rfl

theorem advancePc_withIdle (s : State) (v : Idle) : (s.withIdle v).advancePc = s.advancePc.withIdle v := by
  cases hb : s.bt
  · rw [advancePc_of_not_bt hb, advancePc_of_not_bt (s := s.withIdle v) hb]; rfl
  · rw [advancePc_of_bt hb, advancePc_of_bt (s := s.withIdle v) hb]

/-- A handler that neither reads nor writes the idle fields: replacing them before or after it is the same. -/
def IgnoresIdle (h : State → Except Cause State) : Prop :=
  ∀ s v, h (s.withIdle v) = (h s).map (State.withIdle · v)

namespace IgnoresIdle

/-- Reading a word that does not depend on the idle fields, then going on without them. -/
theorem bind {r : State → Except Cause Word} {k : Word → State → Except Cause State}
    (hr : ∀ s v, r (s.withIdle v) = r s) (hk : ∀ w, IgnoresIdle (k w)) :
    IgnoresIdle fun s => r s >>= fun w => k w s := by
  intro s v
  simp only [hr]
  cases r s with
  | error c => rfl
  | ok w => exact hk w s v

theorem writeReg (i : Nat) (w : Word) : IgnoresIdle (writeReg i w) := by
  intro s v
  by_cases hi : i < s.cfg.nregs <;> simp only [Machine.writeReg, State.withIdle_cfg, hi, if_true, if_false] <;> rfl

theorem writeRamWord (a : Nat) (w : Word) : IgnoresIdle (writeRamWord a w) := by
  intro s v
  by_cases ha : a < s.cfg.ramLen <;> simp only [Machine.writeRamWord, State.withIdle_cfg, ha, if_true, if_false] <;> rfl

theorem writeResult (d r : Word) : IgnoresIdle (writeResult d r) := by
  intro s v
  simp only [Machine.writeResult, destReg, IgnoresIdle.writeReg _ _ s v]
  cases Machine.writeReg (operandIndex d) r s <;> rfl

theorem binaryTransform (f : Word → Word → Except Cause Word) (a b c : Word) : IgnoresIdle (binaryTransform f a b c) :=
  bind (fun _ _ => rfl) fun x => bind (fun _ _ => rfl) fun y => bind (r := fun _ => f x y) (fun _ _ => rfl) (writeResult c)

theorem unaryTransform (g : Word → Except Cause Word) (a b : Word) : IgnoresIdle (unaryTransform g a b) :=
  bind (fun _ _ => rfl) fun x => bind (r := fun _ => g x) (fun _ _ => rfl) (writeResult b)

theorem storeHandler (a b : Word) : IgnoresIdle (storeHandler a b) :=
  bind (fun _ _ => rfl) (writeRamWord _)

theorem copyHandler {source : State → Except Cause Word} (hr : ∀ s v, source (s.withIdle v) = source s) (b : Word) :
    IgnoresIdle (copyHandler source b) :=
  bind hr (writeReg _)

theorem printHandler (a b : Word) : IgnoresIdle (printHandler a b) := by
  intro s v
  have hr : ramRange a b (s.withIdle v) = ramRange a b s := rfl
  simp only [Machine.printHandler, hr]
  cases ramRange a b s <;> rfl

theorem jumpHandler (a : Word) : IgnoresIdle (jumpHandler a) := fun _ _ => rfl

theorem jumpIfZeroHandler (a : Word) : IgnoresIdle (jumpIfZeroHandler a) := by
  intro s v
  cases hz : s.zf <;> simp only [Machine.jumpIfZeroHandler, State.withIdle_zf, hz] <;> rfl

/-- Such a handler leaves the run status alone. -/
theorem status_eq {h : State → Except Cause State} (hh : IgnoresIdle h) {s u : State} (hu : h s = .ok u) :
    u.status = s.status := by
  have hs : h s = (h s).map (State.withIdle · s.idle) := hh s s.idle
  rw [hu] at hs
  have hw : u = u.withIdle s.idle := Except.ok.inj hs
  rw [hw]
  rfl

/-- Replacing only the stacks commutes with a cycle's execute stage, which always answers a next state. -/
theorem runHandler_withStacks {h : State → Except Cause State} (hh : IgnoresIdle h) (op : Opcode) (s : State)
    (d c : Nat) (ds cs : Mem) :
    ∃ t, runHandler op h s = .next t ∧ runHandler op h (withStacks s d c ds cs) = .next (withStacks t d c ds cs) := by
  have hw := hh (s.setBt false) ⟨d, c, ds, cs, s.status⟩
  obtain ⟨u, hu, hs⟩ | ⟨e, he, hs⟩ := runHandler_cases op h s
  · refine ⟨_, hs, ?_⟩
    rw [hu] at hw
    have hst : u.advancePc.status = s.status := (advancePc_status u).trans (hh.status_eq (s := s.setBt false) hu)
    rw [runHandler_ok (s := withStacks s d c ds cs) hw, advancePc_withIdle, ← hst]
    rfl
  · rw [he] at hw
    exact ⟨_, hs, runHandler_error (s := withStacks s d c ds cs) hw⟩

end IgnoresIdle

/-- Dispatch either raises `UnimplementedOpcode` or runs a handler that has nothing to do with the idle fields (R65, R109). -/
theorem exec_handler (i : Instr) :
    exec i = raiseUnimplemented i.opcode ∨ ∃ h, exec i = runHandler i.opcode h ∧ IgnoresIdle h := by
  cases i with
  | hpush | hpop | callr | ret | halt => exact .inl rfl
  | add a b c | sub a b c | mult a b c | div a b c | mod a b c | or a b c | xor a b c | nor a b c | nand a b c
  | and a b c | shiftl a b c | shiftr a b c => exact .inr ⟨_, rfl, .binaryTransform _ a b c⟩
  | not a b => exact .inr ⟨_, rfl, .unaryTransform _ a b⟩
  | load a b => exact .inr ⟨_, rfl, .writeReg _ a⟩
  | rstore a b => exact .inr ⟨_, rfl, .storeHandler a b⟩
  | rcopy a b | icopy a b => exact .inr ⟨_, rfl, .copyHandler (fun _ _ => rfl) b⟩
  | jmp a => exact .inr ⟨_, rfl, .jumpHandler a⟩
  | jmpz a => exact .inr ⟨_, rfl, .jumpIfZeroHandler a⟩
  | print a b => exact .inr ⟨_, rfl, .printHandler a b⟩
  | nop => exact .inr ⟨Except.ok, rfl, fun _ _ => rfl⟩

/-- A dispatch with another `bt`: the same success, or the same error entry with that `bt`. -/
theorem exec_setBt (i : Instr) (s : State) (b : Bool) :
    (∃ t, t.status = s.status ∧ exec i s = .next t ∧ exec i (s.setBt b) = .next t) ∨
    (∃ e, exec i s = .next (s.setStatus (.stopped e)) ∧
      exec i (s.setBt b) = .next ((s.setStatus (.stopped e)).setBt b)) := by
  obtain hi | ⟨h, hi, hh⟩ := exec_handler i <;> rw [hi]
  · exact .inr ⟨_, rfl, rfl⟩
  · exact (runHandler_setBt i.opcode h s b).imp_left fun ⟨u, hu, hs, hb⟩ =>
      ⟨_, (advancePc_status u).trans (hh.status_eq (s := s.setBt false) hu), hs, hb⟩

/-- A cycle with another `bt`: the same success, or the same error entry with that `bt`. -/
theorem step_setBt {s t : State} (h : step s = .next t) (b : Bool) :
    (t.status = .running ∧ step (s.setBt b) = .next t) ∨
    (t.status ≠ .running ∧ step (s.setBt b) = .next (t.setBt b)) := by
  obtain ⟨hrun, -⟩ := step_cases h
  cases hf : fetch s with
  | error e =>
    rw [step_of_fetch_error hrun hf] at h
    cases h
    exact .inr ⟨nofun, step_of_fetch_error (s := s.setBt b) hrun hf⟩
  | ok i =>
    rw [step_of_fetch hrun hf] at h
    rw [step_of_fetch (s := s.setBt b) hrun hf]
    obtain ⟨u, hu, hs, hb⟩ | ⟨e, hs, hb⟩ := exec_setBt i s b <;> rw [h] at hs <;> cases hs
    · exact .inl ⟨hu.trans hrun, hb⟩
    · exact .inr ⟨nofun, hb⟩

theorem exec_withStacks (i : Instr) (s : State) (d c : Nat) (ds cs : Mem) :
    ∃ t, exec i s = .next t ∧ exec i (withStacks s d c ds cs) = .next (withStacks t d c ds cs) := by
  obtain hi | ⟨h, hi, hh⟩ := exec_handler i <;> rw [hi]
  · exact ⟨_, rfl, rfl⟩
  · exact hh.runHandler_withStacks i.opcode s d c ds cs

/-! ## The obligations of 10_state.md -/

/-- Settles O26: error entry changes the status alone; otherwise the slot was fetched, and the handler's effect and step 5
keep every part of the invariant. -/
theorem invariantIsKeptByEveryStep : Obligations.InvariantIsKeptByEveryStep := by
  intro s t hs h
  obtain ⟨-, ⟨e, rfl, -⟩ | ⟨i, u, hf, -, rfl, hu⟩⟩ := step_cases h
  · exact hs.setStatus _
  · obtain ⟨hpc, -, -⟩ := fetch_eq_ok.1 hf
    exact hu.inv hs hpc

/-- Settles O16: the first requested cycle already faults. -/
theorem stoppedMachineNeverRuns : Obligations.StoppedMachineNeverRuns :=
  fun _ _ k h => run_succ_of_fault k (step_of_stopped h)

/-- Settles O20: `bt` is cleared before a handler runs, and error entry carries its old value over. -/
theorem branchTakenFlagIsNeverRead : Obligations.BranchTakenFlagIsNeverRead := by
  intro s t b h
  obtain ⟨ht, hb⟩ | ⟨ht, hb⟩ := step_setBt h b
  · exact ⟨fun _ => hb, fun e he => by simp [ht] at he⟩
  · exact ⟨fun hr => absurd hr ht, fun _ _ => hb⟩

/-- Settles O22: these fields belong to what a step leaves alone. -/
theorem storesAndStacksAreNeverWritten : Obligations.StoresAndStacksAreNeverWritten := by
  intro s t h
  obtain ⟨-, hdsp, hcsp, hdstack, hcstack, histore, hostore, -⟩ := step_sameRest h
  exact ⟨histore, hostore, hdsp, hcsp, hdstack, hcstack⟩

/-- Settles O23: the status check, the fetch and every handler ignore the stacks. -/
theorem stackContentsAreUnobservable : Obligations.StackContentsAreUnobservable := by
  intro s d c ds cs
  cases hs : s.status with
  | stopped e => rw [step_of_stopped hs, step_of_stopped (s := withStacks s d c ds cs) hs]
  | running =>
    cases hf : fetch s with
    | error e =>
      rw [step_of_fetch_error hs hf, step_of_fetch_error (s := withStacks s d c ds cs) hs hf]
      rfl
    | ok i =>
      obtain ⟨t, ht, hw⟩ := exec_withStacks i s d c ds cs
      rw [step_of_fetch hs hf, step_of_fetch (s := withStacks s d c ds cs) hs hf, ht, hw]

/-- Settles O25: each field is unchanged by the handler's effect unless the opcode is one of its writers. -/
theorem onlyNamedOpcodesWrite : Obligations.OnlyNamedOpcodesWrite := by
  intro i s t h
  obtain ⟨e, -, he⟩ | ⟨u, he, hu⟩ := exec_effect i s <;> rw [h] at he <;> cases he
  · simp
  · simp only [advancePc_reg, advancePc_zf, advancePc_ram, advancePc_out]
    refine ⟨fun hi r => ?_, fun hi => ?_, fun hi a => ?_, fun hi => ?_⟩
    · obtain hx | ⟨hw, -⟩ := hu.writes.x
      · simp only [State.reg, hx]
      · simp [hi] at hw
    · exact hu.writes.zf.resolve_right (by simp [hi])
    · rw [hu.writes.ram.resolve_right fun hw => hi hw.1]
    · exact hu.writes.out.resolve_right fun hw => hi hw.1

/-- Settles O27: the dictionary is REFMAP, every region is empty, `pc` is 0 and nothing has been emitted. -/
theorem resetMeetsTheInvariant : Obligations.ResetMeetsTheInvariant where
  dictionary := by decide
  regs := Mem.fits_nil _
  ram := Mem.fits_nil _
  istore := Mem.fits_nil _
  ostore := Mem.fits_nil _
  dstack := Mem.fits_nil _
  cstack := Mem.fits_nil _
  pcBound := Nat.zero_le _
  text := nofun

end Sys2Proof.Machine

/-! # Proofs for 30_encoding.md: encode and decode, the dictionary build, and the three classes of opcode words -/

namespace Sys2Proof

open Sys2Proof.Machine Sys2Proof.Claims

/-! ## An opcode and its triplet -/

/-- The opcode and the triplet of every instruction give it back. -/
theorem Instr.ofTriplet_triplet (i : Instr) : Laws.OperandFields.Statement i := by
  cases i <;> rfl

@[simp] theorem Instr.opcode_ofTriplet (s : Opcode) (a b c : Word) : (Instr.ofTriplet s a b c).opcode = s := by
  cases s <;> rfl

/-- Only the first `operandCount` words of a triplet reach the instruction (R47, R48). -/
theorem Instr.ofTriplet_unused (s : Opcode) (a b c a' b' c' : Word) :
    Instr.ofTriplet s (if 1 ≤ operandCount s then a else a') (if 2 ≤ operandCount s then b else b')
      (if 3 ≤ operandCount s then c else c') = Instr.ofTriplet s a b c := by
  cases s <;> rfl

/-! ## Decoding and encoding through the two lookups -/

/-- A slot decodes to an instruction when its opcode word is mapped to the instruction's opcode and its triplet spells it. -/
theorem decode_eq_ok_iff_symOf {m : OpMap} {sl : Slot} {i : Instr} :
    decode m sl = .ok i ↔
      m.symOf sl.op.toNat = some i.opcode ∧ Instr.ofTriplet i.opcode sl.a sl.b sl.c = i := by
  rw [decode_eq_ok]
  constructor
  · rintro ⟨s, hs, rfl⟩
    simpa using hs
  · rintro ⟨hs, hi⟩
    exact ⟨_, hs, hi⟩

/-- The same through the code of the opcode: in a valid dictionary it is the slot's opcode word. -/
theorem decode_eq_ok_iff_codeOf {m : OpMap} (hv : m.valid) {sl : Slot} {i : Instr} :
    decode m sl = .ok i ↔
      m.codeOf i.opcode = some sl.op.toNat ∧ Instr.ofTriplet i.opcode sl.a sl.b sl.c = i := by
  rw [decode_eq_ok_iff_symOf, OpMap.symOf_iff_codeOf hv]

/-- Whether a slot decodes to some instruction of an opcode depends on its opcode word alone. -/
theorem exists_decode_opcode_iff {m : OpMap} {sl : Slot} {s : Opcode} :
    (∃ i, decode m sl = .ok i ∧ i.opcode = s) ↔ m.symOf sl.op.toNat = some s := by
  constructor
  · rintro ⟨i, hi, rfl⟩
    exact (decode_eq_ok_iff_symOf.1 hi).1
  · intro hs
    exact ⟨_, decode_eq_ok.2 ⟨s, hs, rfl⟩, Instr.opcode_ofTriplet ..⟩

theorem Instr.wellFormed_iff {m : OpMap} {i : Instr} :
    i.wellFormed m = true ↔ ∃ k, m.codeOf i.opcode = some k ∧ k < 65536 := by
  rw [Instr.wellFormed]; split <;> simp_all

theorem encode_of_narrow {m : OpMap} {i : Instr} {k : Nat} (h : m.codeOf i.opcode = some k) (hk : k < 65536) :
    encode m i = some ⟨BitVec.ofNat 16 k, i.triplet.1, i.triplet.2.1, i.triplet.2.2⟩ := by
  simp [encode, h, hk]

theorem encode_of_wide {m : OpMap} {i : Instr} {k : Nat} (h : m.codeOf i.opcode = some k) (hk : 65536 ≤ k) :
    encode m i = none := by
  simp [encode, h, hk]

/-- An instruction whose opcode has the opcode word `w` as its code is encoded with that word, and decodes back. -/
theorem decode_encode {m : OpMap} (hv : m.valid) {i : Instr} {w : Word} (h : m.codeOf i.opcode = some w.toNat) :
    ∃ sl, encode m i = some sl ∧ sl.op = w ∧ decode m sl = .ok i := by
  have henc := encode_of_narrow h w.isLt
  rw [BitVec.ofNat_toNat, BitVec.setWidth_eq] at henc
  exact ⟨_, henc, rfl, (decode_eq_ok_iff_codeOf hv).2 ⟨h, i.ofTriplet_triplet⟩⟩

/-! ## The dictionary build -/

/-- The list a dictionary stands for: each opcode under its name, with its code (R49). -/
def OpMap.entries (m : OpMap) : List (String × Nat) := m.map fun e => (e.1.name, e.2)

theorem Opcode.name_injective : Function.Injective Opcode.name := by
  intro s s' h
  simpa [Opcode.ofName_name] using congrArg Opcode.ofName h

theorem Opcode.ofName_eq_none {text : String} (h : ∀ s : Opcode, s.name ≠ text) : Opcode.ofName text = none :=
  Option.eq_none_iff_forall_ne_some.2 fun s hs => h s (Opcode.name_of_ofName hs)

namespace OpMap

theorem entries_injective : Function.Injective entries :=
  List.map_injective_iff.2 (Opcode.name_injective.prodMap Function.injective_id)

theorem entries_concat (m : OpMap) (s : Opcode) (k : Nat) :
    entries (m ++ [(s, k)]) = m.entries ++ [(s.name, k)] := by
  simp [entries]

theorem map_fst_entries (m : OpMap) : m.entries.map Prod.fst = (m.map Prod.fst).map Opcode.name := by
  simp [entries]

theorem map_snd_entries (m : OpMap) : m.entries.map Prod.snd = m.map Prod.snd := by
  simp [entries]

/-- Names are different exactly when opcodes are, so validity can be read off the list of entries. -/
theorem valid_iff_entries {m : OpMap} :
    m.valid ↔ (m.entries.map Prod.fst).Nodup ∧ (m.entries.map Prod.snd).Nodup := by
  rw [map_fst_entries, map_snd_entries, List.nodup_map_iff Opcode.name_injective]

theorem valid_concat {m : OpMap} (hv : m.valid) {s : Opcode} {k : Nat} (hs : s ∉ m.map Prod.fst)
    (hk : k ∉ m.map Prod.snd) : valid (m ++ [(s, k)]) := by
  obtain ⟨h1, h2⟩ := hv
  simp only [valid, ← List.concat_eq_append, List.map_concat]
  exact ⟨h1.concat hs, h2.concat hk⟩

/-- A list is that of some dictionary when each of its texts is the name of an opcode. -/
theorem exists_entries_eq {es : List (String × Nat)} (h : ∀ e ∈ es, ∃ s : Opcode, s.name = e.1) :
    ∃ m : OpMap, m.entries = es := by
  induction es with
  | nil => exact ⟨[], rfl⟩
  | cons e es ih =>
    obtain ⟨⟨s, hs⟩, hes⟩ := List.forall_mem_cons.1 h
    obtain ⟨m, rfl⟩ := ih hes
    exact ⟨(s, e.2) :: m, by rw [entries, List.map_cons, hs]; rfl⟩

end OpMap

section BuildFrom

variable {done : OpMap} {k : Nat} (rest : List (String × Nat))

theorem buildFrom_unknown {text : String} (h : Opcode.ofName text = none) :
    buildFrom done ((text, k) :: rest) = .error (.unknownSymbol text) := by
  simp [buildFrom, h]

theorem buildFrom_duplicateSymbol {s : Opcode} (h : s ∈ done.map Prod.fst) :
    buildFrom done ((s.name, k) :: rest) = .error (.duplicateSymbol s) := by
  simp_all [buildFrom, Opcode.ofName_name]

theorem buildFrom_duplicateCode {s : Opcode} (hs : s ∉ done.map Prod.fst) (hk : k ∈ done.map Prod.snd) :
    buildFrom done ((s.name, k) :: rest) = .error (.duplicateCode k) := by
  simp_all [buildFrom, Opcode.ofName_name]

theorem buildFrom_new {s : Opcode} (hs : s ∉ done.map Prod.fst) (hk : k ∉ done.map Prod.snd) :
    buildFrom done ((s.name, k) :: rest) = buildFrom (done ++ [(s, k)]) rest := by
  simp_all [buildFrom, Opcode.ofName_name]

end BuildFrom

/-- From a valid dictionary the build succeeds exactly with the valid dictionary of the old and the new entries. -/
theorem buildFrom_eq_ok_iff {done m : OpMap} {es : List (String × Nat)} (hd : done.valid) :
    buildFrom done es = .ok m ↔ m.valid ∧ m.entries = done.entries ++ es := by
  induction es generalizing done with
  | nil =>
    rw [buildFrom, Except.ok.injEq, List.append_nil, OpMap.entries_injective.eq_iff]
    exact ⟨fun h => ⟨h ▸ hd, h.symm⟩, fun h => h.2.symm⟩
  | cons e es ih =>
    obtain ⟨text, k⟩ := e
    cases hn : Opcode.ofName text with
    | none =>
      rw [buildFrom_unknown _ hn]
      refine iff_of_false nofun fun ⟨_, he⟩ => ?_
      have hmem : (text, k) ∈ m.entries := by simp [he]
      obtain ⟨e, -, h⟩ := List.mem_map.1 hmem
      cases h
      simp [Opcode.ofName_name] at hn
    | some s =>
      obtain rfl := Opcode.name_of_ofName hn
      by_cases hs : s ∈ done.map Prod.fst
      · rw [buildFrom_duplicateSymbol _ hs]
        refine iff_of_false nofun fun ⟨hv, he⟩ => ?_
        have hnd := (OpMap.valid_iff_entries.1 hv).1
        rw [he, List.map_append, OpMap.map_fst_entries] at hnd
        exact List.disjoint_of_nodup_append hnd (List.mem_map_of_mem hs) List.mem_cons_self
      by_cases hk : k ∈ done.map Prod.snd
      · rw [buildFrom_duplicateCode _ hs hk]
        refine iff_of_false nofun fun ⟨hv, he⟩ => ?_
        have hnd := (OpMap.valid_iff_entries.1 hv).2
        rw [he, List.map_append, OpMap.map_snd_entries] at hnd
        exact List.disjoint_of_nodup_append hnd hk List.mem_cons_self
      · rw [buildFrom_new _ hs hk, ih (OpMap.valid_concat hd hs hk), OpMap.entries_concat, List.append_assoc]
        rfl

/-- The build succeeds exactly with the valid dictionary whose entries are the list (R49). -/
theorem build_eq_ok_iff {es : List (String × Nat)} {m : OpMap} : build es = .ok m ↔ m.valid ∧ m.entries = es :=
  buildFrom_eq_ok_iff (done := []) ⟨List.nodup_nil, List.nodup_nil⟩

/-- After a list that builds, the build goes on from its dictionary. -/
theorem build_append {es : List (String × Nat)} {m : OpMap} (h : build es = .ok m) (post : List (String × Nat)) :
    build (es ++ post) = buildFrom m post :=
  buildFrom_append es post [] m h

/-! ## REFMAP and the 64-bit image -/

theorem codeOf_refmap (op : Opcode) : refmap.codeOf op = some (tableCode op) := by
  cases op <;> rfl

theorem refmap_valid : refmap.valid := by decide

/-- A 64-bit image under the opcode mask is a code in bits 63 to 48 exactly when its opcode word is that code (R45). -/
theorem and_opcodeMask_eq_iff {image : Nat} (h : image < 2 ^ 64) (c : Nat) :
    image &&& 0xFFFF000000000000 = c * 2 ^ 48 ↔ (Slot.ofImage image).op.toNat = c := by
  have hop : (Slot.ofImage image).op.toNat = image / 2 ^ 48 := by
    simp only [Slot.ofImage, BitVec.toNat_ofNat]
    omega
  have hhigh : (image &&& 0xFFFF000000000000) / 2 ^ 48 = image / 2 ^ 48 := by
    rw [Nat.and_div_two_pow, show 0xFFFF000000000000 / 2 ^ 48 = 2 ^ 16 - 1 from rfl, Nat.and_two_pow_sub_one_eq_mod]
    omega
  have hlow : (image &&& 0xFFFF000000000000) % 2 ^ 48 = 0 := by
    rw [Nat.and_mod_two_pow, show 0xFFFF000000000000 % 2 ^ 48 = 0 from rfl, Nat.and_zero]
  rw [hop]
  omega

/-! ## The execute stage by class of opcode -/

theorem exec_of_isUnimplemented {i : Instr} (h : isUnimplemented i.opcode) (s : State) :
    exec i s = .next { s with status := .stopped (.unimplementedOpcode i.opcode) } := by
  cases i with
  | hpush | hpop | callr | ret | halt => rfl
  | _ => simp [isUnimplemented, Instr.opcode] at h

/-- An opcode with a handler leaves the status alone or stops with its own `ExecutionError` (R122). -/
theorem exec_of_not_isUnimplemented {i : Instr} (h : ¬isUnimplemented i.opcode) (s : State) :
    ∃ t, exec i s = .next t ∧ (t.status = s.status ∨ ∃ c, t.status = .stopped (.executionError i.opcode c)) := by
  obtain ⟨e, ⟨hi, -⟩ | ⟨-, c, rfl⟩, he⟩ | ⟨u, he, hu⟩ := exec_effect i s
  · exact absurd (by simpa [Opcode.withoutHandler, isUnimplemented] using hi) h
  · exact ⟨_, he, .inr ⟨c, rfl⟩⟩
  · exact ⟨_, he, .inl ((advancePc_status u).trans hu.status)⟩

/-! ## The obligations of 30_encoding.md -/

/-- Settles O1: a well-formed instruction's code is an opcode word, with which it is encoded and decodes back. -/
theorem decodeOfEncodeIsTheInstruction : Obligations.DecodeOfEncodeIsTheInstruction := by
  intro m i hv hi
  obtain ⟨k, hk, hlt⟩ := Instr.wellFormed_iff.1 hi
  have hw : (BitVec.ofNat 16 k).toNat = k := Nat.mod_eq_of_lt hlt
  obtain ⟨sl, henc, -, hdec⟩ := decode_encode hv (w := BitVec.ofNat 16 k) (by rw [hk, hw])
  exact ⟨sl, henc, hdec⟩

/-- Settles O2: the opcode word of a slot that decodes is the code of the instruction's opcode. -/
theorem encodeOfDecodedSlotKeepsOpcodeWord : Obligations.EncodeOfDecodedSlotKeepsOpcodeWord := by
  intro m sl i hv hd
  obtain ⟨hk, -⟩ := (decode_eq_ok_iff_codeOf hv).1 hd
  exact ⟨Instr.wellFormed_iff.2 ⟨_, hk, sl.op.isLt⟩, decode_encode hv hk⟩

/-- Settles O4: what is built is the valid dictionary of the list, and a valid list is that of a valid dictionary. -/
theorem buildAcceptsExactlyValidLists : Obligations.BuildAcceptsExactlyValidLists := by
  refine fun es => ⟨⟨?_, ?_⟩, fun m h => build_eq_ok_iff.1 h⟩
  · rintro ⟨m, h⟩
    obtain ⟨hv, rfl⟩ := build_eq_ok_iff.1 h
    refine ⟨fun e he => ?_, OpMap.valid_iff_entries.1 hv⟩
    obtain ⟨x, -, rfl⟩ := List.mem_map.1 he
    exact ⟨x.1, rfl⟩
  · rintro ⟨hn, hnd⟩
    obtain ⟨m, rfl⟩ := OpMap.exists_entries_eq hn
    exact ⟨m, build_eq_ok_iff.2 ⟨OpMap.valid_iff_entries.2 hnd, rfl⟩⟩

/-- Settles O5: the build reaches the entry with the dictionary of the entries before it, and there tests in R49's order. -/
theorem buildReportsFirstBadEntry : Obligations.BuildReportsFirstBadEntry := by
  intro es post m text k h
  obtain ⟨-, rfl⟩ := build_eq_ok_iff.1 h
  rw [build_append h, OpMap.map_fst_entries, OpMap.map_snd_entries]
  refine ⟨fun hn => buildFrom_unknown _ (Opcode.ofName_eq_none hn), ?_, ?_⟩
  · rintro s rfl hs
    exact buildFrom_duplicateSymbol _ ((List.mem_map_of_injective Opcode.name_injective).1 hs)
  · rintro s rfl hs hk
    exact buildFrom_duplicateCode _ (fun h => hs (List.mem_map_of_mem h)) hk

/-- Settles O3: what is built is valid, which makes the lookups inverse; the refusal is the first clause of O5. -/
theorem dictionaryLookupsAreInverse : Obligations.DictionaryLookupsAreInverse := by
  refine ⟨fun es m h s k => ?_, fun es post m text k h => (buildReportsFirstBadEntry es post m text k h).1,
    fun es m m' h h' s k => ?_⟩
  · rw [symbolicToNumeric_eq_ok, numericToSymbolic_eq_ok, OpMap.symOf_iff_codeOf (build_eq_ok_iff.1 h).1]
  · obtain rfl : m = m' := Except.ok.inj (h.symm.trans h')
    exact ⟨rfl, rfl⟩

/-- Settles O6: an opcode word is below 65536. -/
theorem wideCodesNeverDecode : Obligations.WideCodesNeverDecode := by
  intro m op k hv hk hwide
  rw [symbolicToNumeric_eq_ok] at hk
  refine ⟨?_, fun i hi => encode_of_wide (hi ▸ hk) hwide⟩
  rintro sl i hd rfl
  obtain ⟨hw, -⟩ := (decode_eq_ok_iff_codeOf hv).1 hd
  have := sl.op.isLt
  obtain rfl : k = sl.op.toNat := Option.some.inj (hk.symm.trans hw)
  omega

/-- Settles O7: inside both stores a fetch fails on an unmapped word only, and else the execute stage decides. -/
theorem opcodeWordIsInOneOfThreeClasses : Obligations.OpcodeWordIsInOneOfThreeClasses := by
  intro s hrun hpc htrip w
  cases hf : fetch s with
  | error e =>
    obtain ⟨h, -⟩ | ⟨-, hw, rfl⟩ | ⟨-, -, -, h, -⟩ := fetch_error_cases hf
    · omega
    · exact .inr (.inr ⟨hw, step_of_fetch_error hrun hf⟩)
    · omega
  | ok i =>
    obtain ⟨-, -, hd⟩ := fetch_eq_ok.1 hf
    have hw : numericToSymbolic s.cfg.opmap w.toNat = .ok i.opcode :=
      numericToSymbolic_eq_ok.2 (decode_eq_ok_iff_symOf.1 hd).1
    rw [step_of_fetch hrun hf]
    by_cases hu : isUnimplemented i.opcode
    · exact .inr (.inl ⟨_, hw, hu, exec_of_isUnimplemented hu s⟩)
    · obtain ⟨t, ht, hst⟩ := exec_of_not_isUnimplemented hu s
      exact .inl ⟨_, t, hw, hu, ht, hst.imp_left fun h => h.trans hrun⟩

/-- Settles O8: REFMAP is valid and gives each row's code, so an image spells the row exactly when its opcode word is it. -/
theorem referenceImagesMatchTheTable : Obligations.ReferenceImagesMatchTheTable := by
  intro image op h
  refine ⟨symbolicToNumeric_eq_ok.2 (codeOf_refmap op), ?_⟩
  rw [exists_decode_opcode_iff, OpMap.symOf_iff_codeOf refmap_valid, codeOf_refmap, and_opcodeMask_eq_iff h,
    Option.some.injEq, eq_comm]

/-- Settles O10: decoding looks at the opcode word and, through `Instr.ofTriplet`, at the used words. -/
theorem unusedTripletWordsAreIgnored : Obligations.UnusedTripletWordsAreIgnored := by
  intro m w a b c a' b' c' i h
  obtain ⟨hs, hi⟩ := decode_eq_ok_iff_symOf.1 h
  exact decode_eq_ok_iff_symOf.2 ⟨hs, (Instr.ofTriplet_unused ..).trans hi⟩

/-- Settles O9: the eight decodings are evaluated. -/
theorem referenceWordsDecode : Obligations.ReferenceWordsDecode := by
  unfold Obligations.ReferenceWordsDecode
  decide

end Sys2Proof

/-! # Proofs for 40_engine_cycle.md: the stages of a cycle, how it ends, and how a run ends -/

namespace Sys2Proof.Machine

/-! ## Steps 1 to 3: opcode fetch, decode, operand fetch -/

/-- A number has no opcode exactly when no entry of the dictionary has it as its code (R50). -/
theorem numericToSymbolic_eq_error_iff {m : OpMap} {k : Nat} :
    numericToSymbolic m k = .error (.numericKey k) ↔ ∀ e ∈ m, e.2 ≠ k := by
  have hnone : m.symOf k = none ↔ ∀ e ∈ m, e.2 ≠ k := by simp [OpMap.symOf]
  rw [← hnone, numericToSymbolic]
  cases m.symOf k <;> simp

theorem fetchOpcode_ok {s : State} (h : s.pc < s.cfg.istoreLen) : fetchOpcode s = .ok (Mem.read s.istore s.pc) :=
  if_pos h

theorem fetchOpcode_error {s : State} (h : s.cfg.istoreLen ≤ s.pc) :
    fetchOpcode s = .error (.outOfRangeFetchIstore s.pc) :=
  if_neg (Nat.not_lt.2 h)

theorem decodeOpcode_ok {s : State} {w : Word} {op : Opcode}
    (h : numericToSymbolic s.cfg.opmap w.toNat = .ok op) : decodeOpcode s w = .ok op := by
  rw [decodeOpcode, h]

theorem decodeOpcode_error {s : State} {w : Word} {k : LookupError}
    (h : numericToSymbolic s.cfg.opmap w.toNat = .error k) : decodeOpcode s w = .error (.decodeError w) := by
  rw [decodeOpcode, h]

theorem fetchTriplet_ok {s : State} (op : Opcode) (h : 3 * s.pc + 3 ≤ s.cfg.ostoreLen) :
    fetchTriplet s op =
      .ok (Mem.read s.ostore (3 * s.pc), Mem.read s.ostore (3 * s.pc + 1), Mem.read s.ostore (3 * s.pc + 2)) :=
  if_pos h

theorem fetchTriplet_error {s : State} (op : Opcode) (h : s.cfg.ostoreLen < 3 * s.pc + 3) :
    fetchTriplet s op = .error (.outOfRangeFetchOstore (3 * s.pc) op) :=
  if_neg (Nat.not_le.2 h)

section FetchErrors

variable {s : State}

/-- Step 1 fails: neither of the later steps is reached (R62, R67). -/
theorem fetch_of_istoreLen_le (h : s.cfg.istoreLen ≤ s.pc) : fetch s = .error (.outOfRangeFetchIstore s.pc) := by
  rw [fetch, fetchOpcode_error h, error_bind]

/-- Step 2 fails: the operand fetch is not reached (R63, R67). -/
theorem fetch_of_unmapped {k : LookupError} (hpc : s.pc < s.cfg.istoreLen)
    (h : numericToSymbolic s.cfg.opmap (Mem.read s.istore s.pc).toNat = .error k) :
    fetch s = .error (.decodeError (Mem.read s.istore s.pc)) := by
  rw [fetch, fetchOpcode_ok hpc, ok_bind, decodeOpcode_error h, error_bind]

/-- Step 3 fails, whatever the opcode (R64). -/
theorem fetch_of_ostoreLen_lt {op : Opcode} (hpc : s.pc < s.cfg.istoreLen)
    (hop : numericToSymbolic s.cfg.opmap (Mem.read s.istore s.pc).toNat = .ok op)
    (h : s.cfg.ostoreLen < 3 * s.pc + 3) : fetch s = .error (.outOfRangeFetchOstore (3 * s.pc) op) := by
  rw [fetch, fetchOpcode_ok hpc, ok_bind, decodeOpcode_ok hop, ok_bind, fetchTriplet_error op h, error_bind]

end FetchErrors

/-! ## How a cycle ends -/

/-- Dispatch and the handlers report errors of the execute stage only (table of R116). -/
theorem HandlerError.stage {i : Instr} {e : Error} (h : HandlerError i e) : e.stage = .execute := by
  obtain ⟨-, rfl⟩ | ⟨-, c, rfl⟩ := h <;> rfl

theorem exists_step_eq_next {s : State} (h : s.status = .running) : ∃ t, step s = .next t := by
  cases hf : fetch s with
  | error e => exact ⟨_, step_of_fetch_error h hf⟩
  | ok i =>
    rw [step_of_fetch h hf]
    obtain ⟨e, -, he⟩ | ⟨u, he, -⟩ := exec_effect i s
    · exact ⟨_, he⟩
    · exact ⟨_, he⟩

section Step

variable {s t : State} (h : step s = .next t)

include h

/-- A cycle that stops the machine is error entry and nothing else (R68, R129); its error is that of steps 1 to 3 or of the
execute stage. -/
theorem step_cases_of_stopped {e : Error} (he : t.status = .stopped e) :
    t = s.setStatus (.stopped e) ∧ (fetch s = .error e ∨ e.stage = .execute) := by
  obtain ⟨hrun, ⟨e', rfl, hsrc⟩ | ⟨i, u, -, -, rfl, hu⟩⟩ := step_cases h
  · obtain rfl : e' = e := Status.stopped.inj he
    exact ⟨rfl, hsrc.imp_right fun ⟨_, _, _, hi⟩ => hi.stage⟩
  · rw [advancePc_status, hu.status, hrun] at he
    cases he

/-- An error of the fetch or the decode stage comes from steps 1 to 3. -/
theorem fetch_eq_error_of_stage {e : Error} (he : t.status = .stopped e) (hstage : e.stage ≠ .execute) :
    fetch s = .error e :=
  (step_cases_of_stopped h he).2.resolve_right hstage

/-- A cycle that leaves the machine running fetched an instruction, whose handler had its effect before step 5. -/
theorem step_effect_of_running (ht : t.status = .running) :
    ∃ i u, fetch s = .ok i ∧ t = u.advancePc ∧ HandlerEffect i s u := by
  obtain ⟨-, ⟨e, rfl, -⟩ | ⟨i, u, hf, -, rfl, hu⟩⟩ := step_cases h
  · cases ht
  · exact ⟨i, u, hf, rfl, hu⟩

end Step

/-! ## Step 5: the next slot or a taken jump's target -/

/-- In state `s` the instruction redirects the program counter to slot `a` (R99, R100). -/
def Redirects (i : Instr) (s : State) (a : Word) : Prop :=
  i = .jmp a ∨ (i = .jmpz a ∧ s.zf = true)

theorem Redirects.target_unique {i : Instr} {s : State} {a b : Word} (ha : Redirects i s a) (hb : Redirects i s b) :
    a = b := by
  obtain rfl | ⟨rfl, -⟩ := ha <;> obtain hb | ⟨hb, -⟩ := hb <;> cases hb <;> rfl

theorem not_redirects_of_writesRegister {i : Instr} {s : State} (h : i.opcode.writesRegister = true) (a : Word) :
    ¬Redirects i s a := by
  rintro (rfl | ⟨rfl, -⟩) <;> cases h

/-- After step 5 `pc` is the target of a redirect, with `bt` set, or else the next slot, with `bt` clear (R66). -/
theorem HandlerEffect.redirected_or_advanced {i : Instr} {s u : State} (h : HandlerEffect i s u) :
    (∃ a, Redirects i s a ∧ u.advancePc.pc = a.toNat ∧ u.advancePc.bt = true) ∨
    ((∀ a, ¬Redirects i s a) ∧ u.advancePc.pc = s.pc + 1 ∧ u.advancePc.bt = false) := by
  obtain ⟨hi, d, r, -, rfl⟩ | ⟨hi, d, v, -, rfl⟩ | ⟨a, b, rfl, -, rfl⟩ | ⟨a, b, rfl, -, rfl⟩ | ⟨a, hi, rfl⟩ |
    ⟨hi, rfl⟩ := h
  case inl => exact .inr ⟨not_redirects_of_writesRegister (writesRegister_of_isTransform hi), rfl, rfl⟩
  case inr.inl => exact .inr ⟨not_redirects_of_writesRegister (writesRegister_of_mem hi), rfl, rfl⟩
  case inr.inr.inl => exact .inr ⟨by simp [Redirects], rfl, rfl⟩
  case inr.inr.inr.inl => exact .inr ⟨by simp [Redirects], rfl, rfl⟩
  case inr.inr.inr.inr.inl => exact .inl ⟨a, hi, rfl, rfl⟩
  case inr.inr.inr.inr.inr =>
    obtain rfl | ⟨a, rfl, hz⟩ := hi
    · exact .inr ⟨by simp [Redirects], rfl, rfl⟩
    · exact .inr ⟨by simp [Redirects, hz], rfl, rfl⟩

/-! ## Runs -/

/-- A run from a state that a cycle gives back stays there. -/
theorem run_of_step_eq_self {s : State} (h : step s = .next s) (k : Nat) : Sys2Proof.core.run k s = .next s := by
  induction k with
  | zero => rfl
  | succ k ih => rw [run_succ_of_next k h, ih]

/-- A run of a stopped machine gives a state only when it has no cycle (R21). -/
theorem eq_of_run_of_stopped {s u : State} {e : Error} {k : Nat} (hs : s.status = .stopped e)
    (h : Sys2Proof.core.run k s = .next u) : u = s := by
  cases k with
  | zero => cases h; rfl
  | succ k =>
    rw [stoppedMachineNeverRuns s e k hs] at h
    cases h

/-- A run that ends after `n` successful cycles has no more than `n` of them. -/
theorem EndsAfter.length_le {s t t' : State} {n n' : Nat} {e e' : Error} (h : EndsAfter s n e t)
    (h' : EndsAfter s n' e' t') : n' ≤ n := by
  obtain ⟨u, hu, -, ht, rfl⟩ := h
  obtain ⟨u', hu', hrun', -, -⟩ := h'
  by_contra hlt
  obtain ⟨k, rfl⟩ := Nat.exists_eq_add_of_lt (Nat.lt_of_not_le hlt)
  rw [Nat.add_assoc, run_add n (k + 1) s u hu, run_succ_of_next k ht] at hu'
  obtain rfl := eq_of_run_of_stopped rfl hu'
  cases hrun'

/-! ## The obligations of 40_engine_cycle.md -/

/-- Settles O13: step 1 decides by `pc` alone, and no later step reports its error. -/
theorem fetchPastInstructionStoreFails : Obligations.FetchPastInstructionStoreFails := by
  refine fun s hrun => ⟨fun h => step_of_fetch_error hrun (fetch_of_istoreLen_le h), fun h => ⟨fetchOpcode_ok h, ?_⟩⟩
  intro t p ht he
  obtain ⟨hle, -⟩ | ⟨-, -, he⟩ | ⟨-, _, -, -, he⟩ := fetch_error_cases (fetch_eq_error_of_stage ht he nofun)
  · omega
  · cases he
  · cases he

/-- Settles O14: the dictionary's lookup decides step 2, and no other step reports a DecodeError. -/
theorem unmappedWordIsDecodeError : Obligations.UnmappedWordIsDecodeError := by
  refine fun s hrun hpc => ⟨fun h => ?_, fun op hop => ?_⟩
  · exact step_of_fetch_error hrun (fetch_of_unmapped hpc (numericToSymbolic_eq_error_iff.2 h))
  · refine ⟨OpMap.mem_of_symOf (numericToSymbolic_eq_ok.1 hop), decodeOpcode_ok hop, fun t v ht he => ?_⟩
    obtain ⟨-, he⟩ | ⟨-, hw, -⟩ | ⟨-, _, -, -, he⟩ := fetch_error_cases (fetch_eq_error_of_stage ht he nofun)
    · cases he
    · cases hw.symm.trans hop
    · cases he

/-- Settles O15: step 3 decides by the triplet's place alone, and no other step reports its error. -/
theorem shortTripletIsOutOfRangeFetch : Obligations.ShortTripletIsOutOfRangeFetch := by
  refine fun s op hrun hpc hop => ⟨fun h => ?_, fun h => ⟨fetchTriplet_ok op h, fun t k op' ht he => ?_⟩⟩
  · exact step_of_fetch_error hrun (fetch_of_ostoreLen_lt hpc hop h)
  · obtain ⟨-, he⟩ | ⟨-, -, he⟩ | ⟨-, _, -, hlt, -⟩ := fetch_error_cases (fetch_eq_error_of_stage ht he nofun)
    · cases he
    · cases he
    · omega

/-- Settles O18: a cycle that stops the machine is error entry. -/
theorem failingCycleCommitsNothing : Obligations.FailingCycleCommitsNothing :=
  fun _ _ _ h he => (step_cases_of_stopped h he).1

/-- Settles O17: a running machine's cycle has a next state, and one that is stopped is error entry by O18. -/
theorem everyRunningCycleAnswers : Obligations.EveryRunningCycleAnswers := by
  intro s hrun
  obtain ⟨t, ht⟩ := exists_step_eq_next hrun
  refine ⟨t, ht, ?_⟩
  cases hst : t.status with
  | running => exact .inl rfl
  | stopped e => exact .inr ⟨e, failingCycleCommitsNothing s t e ht hst⟩

/-- Settles O19: the fetched instruction redirects, to one target only, or `pc` advances. -/
theorem successfulCycleAdvancesOrRedirects : Obligations.SuccessfulCycleAdvancesOrRedirects := by
  intro s t h ht
  obtain ⟨i, u, hf, rfl, hu⟩ := step_effect_of_running h ht
  obtain ⟨-, -, hd⟩ := fetch_eq_ok.1 hf
  refine ⟨i, hd, ?_⟩
  obtain ⟨a, ha, hpc⟩ | ⟨hno, hpc⟩ := hu.redirected_or_advanced
  · refine ⟨fun b hb => ha.target_unique hb ▸ hpc, fun hno => ?_⟩
    obtain hi | ⟨hi, hz⟩ := ha
    · exact absurd hi (hno a).1
    · simp [(hno a).2 hi] at hz
  · exact ⟨fun b hb => absurd hb (hno b), fun _ => hpc⟩

/-- Settles O51: the first cycle sets `bt` and leaves the rest, and since no cycle reads `bt` every further one does the
same. -/
theorem jumpToItselfNeverEnds : Obligations.JumpToItselfNeverEnds := by
  intro s a hrun hpc htrip hd ha k
  have hstep : step s = .next (s.setBt true) := by
    rw [step_of_fetch hrun (fetch_eq_ok.2 ⟨hpc, htrip, hd⟩)]
    exact congrArg (fun n => Host.Outcome.next ((s.setPc n).setBt true)) ha
  have hself : step (s.setBt true) = .next (s.setBt true) :=
    (branchTakenFlagIsNeverRead s _ true hstep).1 hrun
  rw [run_succ_of_next k hstep]
  exact run_of_step_eq_self hself k

/-- Settles O52: with `bt` clear the cycle advanced `pc`, to ISTORE_LEN, where the opcode fetch fails. -/
theorem fallingThroughTheEndStops : Obligations.FallingThroughTheEndStops := by
  intro s t hlast h ht hbt
  have hcfg : t.cfg = s.cfg := (step_sameRest h).cfg
  obtain ⟨i, u, -, rfl, hu⟩ := step_effect_of_running h ht
  obtain ⟨a, -, -, hset⟩ | ⟨-, hpc, -⟩ := hu.redirected_or_advanced
  · simp [hset] at hbt
  · have hend : s.cfg.istoreLen = u.advancePc.pc := (hpc.trans hlast).symm
    rw [hend]
    exact step_of_fetch_error ht (fetch_of_istoreLen_le (by rw [hcfg, hend]))

/-- Settles O59: neither length exceeds the other, so both runs end in the same cycle. -/
theorem endOfRunIsUnique : Obligations.EndOfRunIsUnique := by
  intro s n n' e e' t t' h h'
  obtain rfl : n = n' := Nat.le_antisymm (h'.length_le h) (h.length_le h')
  obtain ⟨u, hu, -, ht, hte⟩ := h
  obtain ⟨u', hu', -, ht', hte'⟩ := h'
  obtain rfl : u = u' := Host.Outcome.next.inj (hu.symm.trans hu')
  obtain rfl : t = t' := Host.Outcome.next.inj (ht.symm.trans ht')
  have hst : Status.stopped e = .stopped e' := congrArg State.status (hte.symm.trans hte')
  exact ⟨rfl, Status.stopped.inj hst, rfl⟩

/-- Settles O11: the three fetching steps give the instruction the slot decodes to. -/
theorem stepRunsTheDecodedInstruction : Obligations.StepRunsTheDecodedInstruction :=
  fun _ _ hrun hpc htrip hd => step_of_fetch hrun (fetch_eq_ok.2 ⟨hpc, htrip, hd⟩)

/-- Settles O58: the first cycle already fails, with HALT's own error. -/
theorem haltIsTheNormalStop : Obligations.HaltIsTheNormalStop := by
  intro s hrun hpc htrip hd
  refine ⟨⟨s, rfl, hrun, ?_, rfl⟩, fun e => beq_iff_eq⟩
  exact step_of_fetch hrun (fetch_eq_ok.2 ⟨hpc, htrip, hd⟩)

end Sys2Proof.Machine

/-! # Proofs for 41_binary_transforms.md: the shape of R75, and the twelve word functions -/

namespace Sys2Proof.Machine

open Sys2Proof.Claims

/-! ## Encoding -/

/-- An opcode spells what its triplet is decoded to: in a valid dictionary its code is mapped back to it (R50, R51). -/
theorem spells_of_ofTriplet {op : Opcode} {mk : Word → Word → Word → Instr}
    (h : ∀ a b c, Instr.ofTriplet op a b c = mk a b c) : Spells op mk := by
  intro m w a b c hv hw
  rw [symbolicToNumeric_eq_ok, ← OpMap.symOf_iff_codeOf hv] at hw
  exact decode_eq_ok.2 ⟨op, hw, h a b c⟩

/-! ## A cycle that writes one register -/

/-- The zero flag of a word, in terms of the number it stands for (R13). -/
theorem zeroFlag_eq_decide (r : Word) : zeroFlag r = decide (r.toNat = 0) :=
  decide_eq_decide.2 BitVec.toNat_eq

/-- Writing one register, and perhaps the zero flag, and then step 5: the frame of a successful cycle. -/
theorem regWritten_advancePc (s : State) (d : Nat) (v : Word) (z : Bool) :
    RegWritten s (((s.setBt false).setX (Mem.write s.x d v)).setZf z).advancePc d v.toNat where
  value := by simp
  otherRegs := fun i hi => (advancePc_reg _ i).trans (Mem.read_write_other s.x v hi)
  ram := by simp
  out := by simp
  pc := rfl
  bt := rfl
  rest := sameRest_advancePc ⟨rfl, rfl, rfl, rfl, rfl, rfl, rfl, rfl⟩

/-! ## The errors of a binary transform, in their order (R75, R128) -/

section BinaryErrors

variable {f : Word → Word → Except Cause Word} {a b c : Word} {s : State}

theorem writeResult_error {d : Word} (r : Word) (hd : s.cfg.nregs ≤ d.toNat) :
    writeResult d r s = .error (.outOfRangeAccess .reg d.toNat) := by
  rw [writeResult, destReg, operandIndex, writeReg_error r (Nat.not_lt.2 hd), error_bind]

theorem binaryTransform_of_src1_outOfRange (ha : s.cfg.nregs ≤ a.toNat) :
    binaryTransform f a b c s = .error (.outOfRangeAccess .reg a.toNat) := by
  rw [binaryTransform, sourceReg, operandIndex, readReg_error (Nat.not_lt.2 ha), error_bind]

theorem binaryTransform_of_src2_outOfRange (ha : a.toNat < s.cfg.nregs) (hb : s.cfg.nregs ≤ b.toNat) :
    binaryTransform f a b c s = .error (.outOfRangeAccess .reg b.toNat) := by
  simp only [binaryTransform, sourceReg, operandIndex, readReg_ok ha, readReg_error (Nat.not_lt.2 hb), ok_bind,
    error_bind]

/-- With both sources in range, the function and then the destination decide. -/
theorem binaryTransform_of_sources (ha : a.toNat < s.cfg.nregs) (hb : b.toNat < s.cfg.nregs) :
    binaryTransform f a b c s = f (s.reg a.toNat) (s.reg b.toNat) >>= fun r => writeResult c r s := by
  simp only [binaryTransform, sourceReg, operandIndex, readReg_ok ha, readReg_ok hb, ok_bind]

end BinaryErrors

/-! ## From a word function to the rule of its instruction -/

/-- On words, `f` raises the arithmetic errors `bad` names, and otherwise computes the function `g` on numbers. -/
structure ComputesOrRaises (f : Word → Word → Except Cause Word) (bad : Nat → Nat → Option ArithKind)
    (g : Nat → Nat → Nat) : Prop where
  value : ∀ x y : Word, bad x.toNat y.toNat = none → ∃ r, f x y = .ok r ∧ r.toNat = g x.toNat y.toNat
  error : ∀ (x y : Word) (k : ArithKind), bad x.toNat y.toNat = some k → f x y = .error (.arithmeticError k)

/-- A word function that always gives a result. -/
theorem ComputesOrRaises.of_total {r : Word → Word → Word} {g : Nat → Nat → Nat}
    (hr : ∀ x y, (r x y).toNat = g x.toNat y.toNat) : ComputesOrRaises (fun x y => .ok (r x y)) never g where
  value := fun x y _ => ⟨r x y, rfl, hr x y⟩
  error := nofun

/-- A word function that fails exactly on the second operands satisfying `P`. -/
theorem ComputesOrRaises.of_guard (P : Nat → Prop) [DecidablePred P] (kind : Nat → ArithKind) {r : Word → Word → Word}
    {g : Nat → Nat → Nat} (hr : ∀ x y, ¬P y.toNat → (r x y).toNat = g x.toNat y.toNat) :
    ComputesOrRaises (fun x y => if P y.toNat then .error (.arithmeticError (kind y.toNat)) else .ok (r x y))
      (fun _ y => if P y then some (kind y) else none) g where
  value := by
    intro x y h
    have hP : ¬P y.toNat := by simpa using h
    exact ⟨r x y, if_neg hP, hr x y hP⟩
  error := by
    intro x y k h
    obtain ⟨hP, rfl⟩ : P y.toNat ∧ kind y.toNat = k := by simpa using h
    exact if_pos hP

/-- An instruction that runs the shape of R75 over `f` obeys the rule for the function on numbers that `f` computes. -/
theorem binaryTransformRule_of_computes {op : Opcode} {mk : Word → Word → Word → Instr}
    {f : Word → Word → Except Cause Word} {bad : Nat → Nat → Option ArithKind} {g : Nat → Nat → Nat}
    (hmk : ∀ a b c, Instr.ofTriplet op a b c = mk a b c)
    (hexec : ∀ a b c s, exec (mk a b c) s = runHandler op (binaryTransform f a b c) s)
    (hf : ComputesOrRaises f bad g) : BinaryTransformRule op mk bad g := by
  refine ⟨spells_of_ofTriplet hmk, fun s a b c => ⟨?result, ?src1, ?src2, ?arith, ?dst⟩⟩ <;>
    simp only [Fails, hexec]
  case result =>
    intro ha hb hc hgood
    obtain ⟨r, hr, hval⟩ := hf.value _ _ hgood
    have hok := (binaryTransform_eq_ok (s := s.setBt false)).2 ⟨ha, hb, hc, r, hr, rfl⟩
    refine ⟨_, runHandler_ok hok, hval ▸ regWritten_advancePc s _ r _, ?_⟩
    rw [advancePc_zf, State.setZf_zf, zeroFlag_eq_decide, hval]
  case src1 => exact fun ha => runHandler_error (binaryTransform_of_src1_outOfRange ha)
  case src2 => exact fun ha hb => runHandler_error (binaryTransform_of_src2_outOfRange ha hb)
  case arith =>
    intro k ha hb hbad
    refine runHandler_error ((binaryTransform_of_sources (s := s.setBt false) ha hb).trans ?_)
    rw [State.setBt_reg, State.setBt_reg, hf.error _ _ k hbad, error_bind]
  case dst =>
    intro ha hb hgood hc
    obtain ⟨r, hr, -⟩ := hf.value _ _ hgood
    refine runHandler_error ((binaryTransform_of_sources (s := s.setBt false) ha hb).trans ?_)
    rw [State.setBt_reg, State.setBt_reg, hr, ok_bind]
    exact writeResult_error r hc

/-! ## The word functions on numbers -/

theorem toNat_ofInt_sub (x y : Word) :
    (BitVec.ofInt 16 ((x.toNat : Int) - (y.toNat : Int))).toNat =
      if y.toNat ≤ x.toNat then x.toNat - y.toNat else x.toNat + 65536 - y.toNat := by
  have hx := x.isLt
  have hy := y.isLt
  rw [BitVec.toNat_ofInt]
  split <;> omega

/-- A number that is no larger than a word is the number of the word it is cut to. -/
theorem toNat_ofNat_of_le {n : Nat} {x : Word} (h : n ≤ x.toNat) : (BitVec.ofNat 16 n).toNat = n := by
  rw [BitVec.toNat_ofNat, Nat.mod_eq_of_lt (Nat.lt_of_le_of_lt h x.isLt)]

/-! ## The obligations of 41_binary_transforms.md -/

/-- Settles O30: cutting the sum to 16 bits is reducing it modulo 65536. -/
theorem addWrapsModulo65536 : Obligations.AddWrapsModulo65536 :=
  binaryTransformRule_of_computes (f := aluAdd) (fun _ _ _ => rfl) (fun _ _ _ _ => rfl)
    (.of_total fun _ _ => BitVec.toNat_ofNat _ _)

/-- Settles O31: the integer difference modulo 65536 is the difference, or that plus 65536. -/
theorem subWrapsModulo65536 : Obligations.SubWrapsModulo65536 :=
  binaryTransformRule_of_computes (f := aluSub) (fun _ _ _ => rfl) (fun _ _ _ _ => rfl) (.of_total toNat_ofInt_sub)

/-- Settles O32: cutting the product to 16 bits is reducing it modulo 65536. -/
theorem multKeepsTheLowHalf : Obligations.MultKeepsTheLowHalf :=
  binaryTransformRule_of_computes (f := aluMult) (fun _ _ _ => rfl) (fun _ _ _ _ => rfl)
    (.of_total fun _ _ => BitVec.toNat_ofNat _ _)

/-- Settles O33: a quotient is no larger than its dividend, so it fits a word. -/
theorem divIsUnsignedFloorOrFails : Obligations.DivIsUnsignedFloorOrFails :=
  binaryTransformRule_of_computes (f := aluDiv) (fun _ _ _ => rfl) (fun _ _ _ _ => rfl)
    (.of_guard (· = 0) (fun _ => .divideByZero) fun _ _ _ => toNat_ofNat_of_le (Nat.div_le_self _ _))

/-- Settles O34: a remainder is no larger than its dividend, and is what the quotient leaves of it. -/
theorem modIsRemainderOrFails : Obligations.ModIsRemainderOrFails :=
  binaryTransformRule_of_computes (f := aluMod) (fun _ _ _ => rfl) (fun _ _ _ _ => rfl)
    (.of_guard (· = 0) (fun _ => .moduloByZero) fun _ _ _ =>
      (toNat_ofNat_of_le (Nat.mod_le _ _)).trans (Nat.mod_eq_sub _ _))

/-- Settles O35: the word operation is the operation on the words' numbers. -/
theorem orIsBitwise : Obligations.OrIsBitwise :=
  binaryTransformRule_of_computes (f := aluOr) (fun _ _ _ => rfl) (fun _ _ _ _ => rfl) (.of_total BitVec.toNat_or)

/-- Settles O36: the word operation is the operation on the words' numbers. -/
theorem xorIsBitwise : Obligations.XorIsBitwise :=
  binaryTransformRule_of_computes (f := aluXor) (fun _ _ _ => rfl) (fun _ _ _ _ => rfl) (.of_total BitVec.toNat_xor)

/-- Settles O37: the complement of a word is its difference from 65535. -/
theorem norIsComplementOfOr : Obligations.NorIsComplementOfOr :=
  binaryTransformRule_of_computes (f := aluNor) (fun _ _ _ => rfl) (fun _ _ _ _ => rfl)
    (.of_total fun x y => by rw [BitVec.toNat_not, BitVec.toNat_or])

/-- Settles O38: the complement of a word is its difference from 65535. -/
theorem nandIsComplementOfAnd : Obligations.NandIsComplementOfAnd :=
  binaryTransformRule_of_computes (f := aluNand) (fun _ _ _ => rfl) (fun _ _ _ _ => rfl)
    (.of_total fun x y => by rw [BitVec.toNat_not, BitVec.toNat_and])

/-- Settles O39: the word operation is the operation on the words' numbers. -/
theorem andIsBitwise : Obligations.AndIsBitwise :=
  binaryTransformRule_of_computes (f := aluAnd) (fun _ _ _ => rfl) (fun _ _ _ _ => rfl) (.of_total BitVec.toNat_and)

/-- Settles O40: below count 16 the shifted word is the product with a power of two, cut to 16 bits. -/
theorem shiftlIsLogicalOrFails : Obligations.ShiftlIsLogicalOrFails :=
  binaryTransformRule_of_computes (f := aluShiftl) (fun _ _ _ => rfl) (fun _ _ _ _ => rfl)
    (.of_guard (16 ≤ ·) .shiftCount fun _ _ _ => BitVec.toNat_ofNat _ _)

/-- Settles O41: below count 16 the shifted word is the quotient by a power of two, which fits a word. -/
theorem shiftrIsLogicalOrFails : Obligations.ShiftrIsLogicalOrFails :=
  binaryTransformRule_of_computes (f := aluShiftr) (fun _ _ _ => rfl) (fun _ _ _ _ => rfl)
    (.of_guard (16 ≤ ·) .shiftCount fun _ _ _ => toNat_ofNat_of_le (Nat.div_le_self _ _))

end Sys2Proof.Machine

/-! # Proofs for 42_unary_transforms.md: the shape of R90, and NOT -/

namespace Sys2Proof.Machine

open Sys2Proof.Claims

/-! ## The errors of a unary transform, in their order (R90, R128) -/

section UnaryErrors

variable {g : Word → Except Cause Word} {a b : Word} {s : State}

theorem unaryTransform_of_src_outOfRange (ha : s.cfg.nregs ≤ a.toNat) :
    unaryTransform g a b s = .error (.outOfRangeAccess .reg a.toNat) := by
  rw [unaryTransform, sourceReg, operandIndex, readReg_error (Nat.not_lt.2 ha), error_bind]

/-- With the source in range and a result, the destination decides. -/
theorem unaryTransform_of_dst_outOfRange {r : Word} (ha : a.toNat < s.cfg.nregs) (hr : g (s.reg a.toNat) = .ok r)
    (hb : s.cfg.nregs ≤ b.toNat) : unaryTransform g a b s = .error (.outOfRangeAccess .reg b.toNat) := by
  rw [unaryTransform, sourceReg, operandIndex, readReg_ok ha, ok_bind, hr, ok_bind, writeResult_error r hb]

end UnaryErrors

/-! ## The obligation of 42_unary_transforms.md -/

/-- Settles O42: the complement of a word is its difference from 65535, and only the two register numbers can fail. -/
theorem notIsComplement : Obligations.NotIsComplement := by
  refine ⟨spells_of_ofTriplet fun _ _ _ => rfl, fun s a b => ⟨?result, ?src, ?dst⟩⟩
  case result =>
    intro ha hb
    have hok := (unaryTransform_eq_ok (g := aluNot) (s := s.setBt false)).2 ⟨ha, hb, ~~~s.reg a.toNat, rfl, rfl⟩
    have hval : (~~~s.reg a.toNat).toNat = 65535 - (s.reg a.toNat).toNat := BitVec.toNat_not
    refine ⟨_, runHandler_ok hok, hval ▸ regWritten_advancePc s _ _ _, ?_⟩
    rw [advancePc_zf, State.setZf_zf, zeroFlag_eq_decide, hval]
  case src => exact fun ha => runHandler_error (unaryTransform_of_src_outOfRange ha)
  case dst => exact fun ha hb => runHandler_error (unaryTransform_of_dst_outOfRange (s := s.setBt false) ha rfl hb)

end Sys2Proof.Machine

/-! # Proofs for 43_register_memory.md: LOAD, RSTORE and the two copies -/

namespace Sys2Proof.Machine

open Sys2Proof.Claims

/-! ## The word accesses by their bound (R9, R31) -/

section WordAccess

variable {s : State} {n : Nat}

theorem readRamWord_ok (h : n < s.cfg.ramLen) : readRamWord n s = .ok (Mem.read s.ram n) := if_pos h

theorem readRamWord_error (h : ¬n < s.cfg.ramLen) : readRamWord n s = .error (.outOfRangeAccess .ram n) := if_neg h

theorem writeRamWord_error (v : Word) (h : ¬n < s.cfg.ramLen) :
    writeRamWord n v s = .error (.outOfRangeAccess .ram n) := if_neg h

theorem readOstoreWord_ok (h : n < s.cfg.ostoreLen) : readOstoreWord n s = .ok (Mem.read s.ostore n) := if_pos h

theorem readOstoreWord_error (h : ¬n < s.cfg.ostoreLen) :
    readOstoreWord n s = .error (.outOfRangeAccess .ostore n) := if_neg h

end WordAccess

/-! ## Copies into a register: success, and the errors in their order (R93, R95 to R97, R128) -/

/-- A handler that only writes `v` to register `d` makes a cycle with the frame of one register write; the flag is kept. -/
theorem runHandler_regWritten {op : Opcode} {h : State → Except Cause State} {s : State} {d : Nat} {v : Word}
    (hh : h (s.setBt false) = .ok ((s.setBt false).setX (Mem.write s.x d v))) :
    ∃ t, runHandler op h s = .next t ∧ RegWritten s t d v.toNat ∧ t.zf = s.zf :=
  ⟨_, runHandler_ok hh, regWritten_advancePc s d v s.zf, advancePc_zf _⟩

section CopyErrors

variable {source : State → Except Cause Word} {b : Word} {s : State}

theorem copyHandler_of_source_error {e : Cause} (he : source s = .error e) : copyHandler source b s = .error e := by
  rw [copyHandler, he, error_bind]

/-- With the source word found, the destination decides. -/
theorem copyHandler_of_dst_outOfRange {v : Word} (hv : source s = .ok v) (hb : s.cfg.nregs ≤ b.toNat) :
    copyHandler source b s = .error (.outOfRangeAccess .reg b.toNat) := by
  rw [copyHandler, hv, ok_bind, destReg, operandIndex, writeReg_error v (Nat.not_lt.2 hb)]

end CopyErrors

/-- An instruction that copies from a bounded source obeys the copy rule; the source is read after step 4 cleared the
branch-taken mark. -/
theorem copyRule_of_source {op : Opcode} {mk : Word → Word → Instr} {space : Space} {len : State → Nat}
    {w : State → Nat → Word} {source : Word → State → Except Cause Word}
    (hmk : ∀ a b c, Instr.ofTriplet op a b c = mk a b)
    (hexec : ∀ a b s, exec (mk a b) s = runHandler op (copyHandler (source a) b) s)
    (hok : ∀ a s, a.toNat < len s → source a (s.setBt false) = .ok (w s a.toNat))
    (herr : ∀ a s, ¬a.toNat < len s → source a (s.setBt false) = .error (.outOfRangeAccess space a.toNat)) :
    CopyRule op mk space len w := by
  refine ⟨spells_of_ofTriplet hmk, fun s a b => ⟨?result, ?src, ?dst⟩⟩ <;> simp only [Fails, hexec]
  case result =>
    exact fun ha hb => runHandler_regWritten (copyHandler_eq_ok.2 ⟨hb, _, hok a s ha, rfl⟩)
  case src => exact fun ha => runHandler_error (copyHandler_of_source_error (herr a s (Nat.not_lt.2 ha)))
  case dst => exact fun ha hb => runHandler_error (copyHandler_of_dst_outOfRange (hok a s ha) hb)

/-! ## The errors of the store, in their order (R94, R97, R128) -/

section StoreErrors

variable {a b : Word} {s : State}

theorem storeHandler_of_src_outOfRange (ha : s.cfg.nregs ≤ a.toNat) :
    storeHandler a b s = .error (.outOfRangeAccess .reg a.toNat) := by
  rw [storeHandler, sourceReg, operandIndex, readReg_error (Nat.not_lt.2 ha), error_bind]

/-- With the source register in range, the RAM address decides. -/
theorem storeHandler_of_dst_outOfRange (ha : a.toNat < s.cfg.nregs) (hb : s.cfg.ramLen ≤ b.toNat) :
    storeHandler a b s = .error (.outOfRangeAccess .ram b.toNat) := by
  rw [storeHandler, sourceReg, operandIndex, readReg_ok ha, ok_bind, ramDest, operandIndex,
    writeRamWord_error _ (Nat.not_lt.2 hb)]

end StoreErrors

/-! ## The obligations of 43_register_memory.md -/

/-- Settles O43: LOAD is one register write, which fails only on its register number. -/
theorem loadWritesTheLiteral : Obligations.LoadWritesTheLiteral := by
  refine ⟨spells_of_ofTriplet fun _ _ _ => rfl, fun s a b => ⟨?result, ?dst⟩⟩
  case result => exact fun hb => runHandler_regWritten (writeReg_ok a hb)
  case dst => exact fun hb => runHandler_error (writeReg_error a (Nat.not_lt.2 hb))

/-- Settles O44: RSTORE is one RAM write, so a read at another address is unchanged. -/
theorem rstoreWritesOneRamWord : Obligations.RstoreWritesOneRamWord := by
  refine ⟨spells_of_ofTriplet fun _ _ _ => rfl, fun s a b => ⟨?result, ?src, ?dst⟩⟩
  case result =>
    intro ha hb
    have hok := (storeHandler_eq_ok (s := s.setBt false)).2 ⟨ha, hb, rfl⟩
    refine ⟨_, runHandler_ok hok, by simp, fun k hk => ?other, by simp, by simp, by simp, rfl, rfl, ?rest⟩
    case other => exact (congrArg (Mem.read · k) (advancePc_ram _)).trans (Mem.read_write_other s.ram _ hk)
    case rest => exact sameRest_advancePc ⟨rfl, rfl, rfl, rfl, rfl, rfl, rfl, rfl⟩
  case src => exact fun ha => runHandler_error (storeHandler_of_src_outOfRange (s := s.setBt false) ha)
  case dst => exact fun ha hb => runHandler_error (storeHandler_of_dst_outOfRange (s := s.setBt false) ha hb)

/-- Settles O45: the source is the RAM word the first operand addresses. -/
theorem rcopyReadsOneRamWord : Obligations.RcopyReadsOneRamWord :=
  copyRule_of_source (source := ramSource) (fun _ _ _ => rfl) (fun _ _ _ => rfl)
    (fun _ _ ha => readRamWord_ok ha) (fun _ _ ha => readRamWord_error ha)

/-- Settles O46: the source is the operand-store word at the index the first operand names, wherever `pc` is. -/
theorem icopyReadsOneOperandStoreWord : Obligations.IcopyReadsOneOperandStoreWord :=
  copyRule_of_source (source := ostoreSource) (fun _ _ _ => rfl) (fun _ _ _ => rfl)
    (fun _ _ ha => readOstoreWord_ok ha) (fun _ _ ha => readOstoreWord_error ha)

/-- Settles O47, by chaining the rules of the three instructions: the first cycle keeps the sizes, so the second one's
operands are still in range, and it reads what the first one wrote. -/
theorem storeThenCopyGivesTheStoredWord : Obligations.StoreThenCopyGivesTheStoredWord := by
  obtain ⟨-, load⟩ := loadWritesTheLiteral
  obtain ⟨-, rstore⟩ := rstoreWritesOneRamWord
  obtain ⟨-, rcopy⟩ := rcopyReadsOneRamWord
  intro s k a m d ha hd hm
  constructor
  case left =>
    obtain ⟨stored, -⟩ := rstore s a m
    obtain ⟨t, ht, hram, -, -, -, -, -, -, hrest⟩ := stored ha hm
    rw [← hrest.cfg] at hd hm
    obtain ⟨copied, -⟩ := rcopy t m d
    obtain ⟨u, hu, hw, -⟩ := copied hm hd
    exact ⟨t, u, ht, hu, (BitVec.eq_of_toNat_eq hw.value).trans hram, (hw.ram m.toNat).trans hram⟩
  case right =>
    obtain ⟨loaded, -⟩ := load s k d
    obtain ⟨t, ht, hw, -⟩ := loaded hd
    rw [← hw.rest.cfg] at hd hm
    obtain ⟨stored, -⟩ := rstore t d m
    obtain ⟨u, hu, hram, -⟩ := stored hd hm
    exact ⟨t, u, ht, hu, hram.trans (BitVec.eq_of_toNat_eq hw.value)⟩

end Sys2Proof.Machine

/-! # Proofs for 44_control_flow.md: JMP, JMPZ and NOP -/

namespace Sys2Proof.Machine

open Sys2Proof.Claims

/-! ## A cycle that writes nothing but `pc` and the branch-taken mark (R66) -/

section PcOnly

variable {op : Opcode} {h : State → Except Cause State} {s : State}

/-- After a jump step 5 has nothing to do: the mark that the handler set suppresses the advance. -/
theorem runHandler_jump {a : Word} (hh : h (s.setBt false) = jumpHandler a (s.setBt false)) :
    runHandler op h s = .next ((s.setPc a.toNat).setBt true) :=
  (runHandler_ok hh).trans (congrArg Host.Outcome.next (advancePc_of_bt rfl))

/-- After a handler that does nothing step 5 goes to the next slot: step 4 has cleared the mark. -/
theorem runHandler_nothing (hh : h (s.setBt false) = .ok (s.setBt false)) :
    runHandler op h s = .next ((s.setPc (s.pc + 1)).setBt false) :=
  (runHandler_ok hh).trans (congrArg Host.Outcome.next (advancePc_of_not_bt rfl))

end PcOnly

/-! ## The conditional jump by its flag (R100) -/

section ConditionalJump

variable {s : State}

theorem jumpIfZeroHandler_of_zf (a : Word) (hz : s.zf = true) : jumpIfZeroHandler a s = jumpHandler a s := if_pos hz

theorem jumpIfZeroHandler_of_not_zf (a : Word) (hz : s.zf = false) : jumpIfZeroHandler a s = .ok s :=
  if_neg (ne_true_of_eq_false hz)

end ConditionalJump

/-! ## The obligations of 44_control_flow.md -/

/-- Settles O48: the handler is the redirection itself. -/
theorem jmpRedirects : Obligations.JmpRedirects :=
  ⟨spells_of_ofTriplet fun _ _ _ => rfl, fun _ _ => runHandler_jump (op := .jmp) rfl⟩

/-- Settles O49: the flag the handler reads is the one from before the cycle, since step 4 clears only the mark. -/
theorem jmpzRedirectsOnZero : Obligations.JmpzRedirectsOnZero := by
  refine ⟨spells_of_ofTriplet fun _ _ _ => rfl, fun s a => ⟨?zero, ?nonzero⟩⟩
  case zero => exact fun hz => runHandler_jump (jumpIfZeroHandler_of_zf (s := s.setBt false) a hz)
  case nonzero => exact fun hz => runHandler_nothing (jumpIfZeroHandler_of_not_zf (s := s.setBt false) a hz)

/-- Settles O50: the handler does nothing, so only step 5 changes the state. -/
theorem nopOnlyAdvances : Obligations.NopOnlyAdvances :=
  ⟨spells_of_ofTriplet fun _ _ _ => rfl, fun _ => runHandler_nothing (op := .nop) rfl⟩

end Sys2Proof.Machine

/-! # Proofs for 45_io_print.md: PRINT, the decoding of UTF-16, and what a run emits -/

namespace Sys2Proof.Machine

open Sys2Proof.Claims

/-! ## The decoding of UTF-16 and the loop of R105 -/

/-- A unit and the next one are a surrogate pair when they lie within the four bounds of R105. -/
theorem surrogates_iff {u v : Word} : (isHighSurrogate u && isLowSurrogate v) = true ↔
    (0xD800 ≤ u.toNat ∧ u.toNat ≤ 0xDBFF) ∧ 0xDC00 ≤ v.toNat ∧ v.toNat ≤ 0xDFFF :=
  Bool.and_eq_true_iff.trans (and_congr decide_eq_true_iff decide_eq_true_iff)

/-- The two surrogate ranges adjoin, so R105 tests a lone unit against one range. -/
theorem unitScalar_eq (u : Word) :
    unitScalar u = if 0xD800 ≤ u.toNat ∧ u.toNat ≤ 0xDFFF then 0xFFFD else u.toNat := by
  simp only [unitScalar, isHighSurrogate, isLowSurrogate, Bool.or_eq_true, decide_eq_true_eq]
  exact if_congr (by omega) rfl rfl

/-- At the end of the list the loop adds nothing. -/
theorem utf16Loop_at_end (u : List Word) (fuel : Nat) : utf16Loop u fuel u.length = [] := by
  cases fuel <;> simp [utf16Loop]

/-- One round of the loop, by the unit at its position and the rest of the list after it. -/
theorem utf16Loop_succ (pre : List Word) (u : Word) (us : List Word) (fuel : Nat) :
    utf16Loop (pre ++ u :: us) (fuel + 1) pre.length =
      if us ≠ [] ∧ (isHighSurrogate u && isLowSurrogate (us.headD 0)) = true then
        pairScalar u (us.headD 0) :: utf16Loop (pre ++ u :: us) fuel (pre.length + 2)
      else unitScalar u :: utf16Loop (pre ++ u :: us) fuel (pre.length + 1) := by
  have hlt : pre.length < (pre ++ u :: us).length := by simp
  have hu : (pre ++ u :: us).getD pre.length 0 = u := by simp
  have hv : (pre ++ u :: us).getD (pre.length + 1) 0 = us.headD 0 := by cases us <;> simp
  have hnext : pre.length + 1 < (pre ++ u :: us).length ↔ us ≠ [] := by cases us <;> simp
  rw [utf16Loop, if_pos hlt]
  simp only [hu, hv, hnext]
  refine if_congr ?pair rfl ?unit
  case pair => rw [surrogates_iff]; tauto
  case unit => rw [unitScalar_eq, apply_ite (· :: _)]

/-- From any position on the loop decodes the rest of the list, when the fuel suffices for it. -/
theorem utf16Loop_append (pre us : List Word) {fuel : Nat} (h : us.length ≤ fuel) :
    utf16Loop (pre ++ us) fuel pre.length = decodeUtf16 us := by
  fun_induction decodeUtf16 us generalizing pre fuel with
  | case1 => rw [List.append_nil, utf16Loop_at_end]
  | case2 u =>
    obtain ⟨fuel, rfl⟩ := Nat.exists_eq_succ_of_ne_zero (Nat.ne_zero_of_lt h)
    have hend : utf16Loop (pre ++ [u]) fuel (pre.length + 1) = [] := by
      simpa using utf16Loop_at_end (pre ++ [u]) fuel
    rw [utf16Loop_succ, if_neg (fun hp => hp.1 rfl), hend]
  | case3 u v us huv ih =>
    obtain ⟨fuel, rfl⟩ := Nat.exists_eq_succ_of_ne_zero (Nat.ne_zero_of_lt h)
    have hrest : utf16Loop (pre ++ u :: v :: us) fuel (pre.length + 2) = decodeUtf16 us := by
      simpa using ih (pre ++ [u, v]) (Nat.le_of_succ_le (Nat.le_of_succ_le_succ h))
    rw [utf16Loop_succ, if_pos ⟨List.cons_ne_nil _ _, huv⟩, hrest, List.headD_cons]
  | case4 u v us huv ih =>
    obtain ⟨fuel, rfl⟩ := Nat.exists_eq_succ_of_ne_zero (Nat.ne_zero_of_lt h)
    have hrest : utf16Loop (pre ++ u :: v :: us) fuel (pre.length + 1) = decodeUtf16 (v :: us) := by
      simpa using ih (pre ++ [u]) (Nat.le_of_succ_le_succ h)
    rw [utf16Loop_succ, if_neg (fun hp => huv hp.2), hrest]

/-- One scalar is made of one or of two words. -/
theorem length_decodeUtf16_bounds (us : List Word) :
    us.length ≤ 2 * (decodeUtf16 us).length ∧ (decodeUtf16 us).length ≤ us.length := by
  fun_induction decodeUtf16 us with
  | case1 | case2 => simp
  | case3 u v us _ ih | case4 u v us _ ih =>
    simp only [List.length_cons] at ih ⊢
    omega

/-! ## PRINT by its range (R104) -/

section Print

variable {a b : Word} {s : State}

theorem readRam_error {start n : Nat} (h : s.cfg.ramLen < start + n) :
    readRam start n s = .error (.outOfRangeAccess .ram start) := if_neg (Nat.not_le.2 h)

theorem printHandler_error (h : s.cfg.ramLen < a.toNat + b.toNat) :
    printHandler a b s = .error (.outOfRangeAccess .ram a.toNat) := by
  rw [printHandler, ramRange, operandIndex, operandIndex, readRam_error h, error_bind]

/-- A PRINT whose range lies in RAM emits the decoding of the range, and advances. -/
theorem exec_print_ok (h : a.toNat + b.toNat ≤ s.cfg.ramLen) :
    exec (.print a b) s =
      .next { s with out := s.out ++ [decodeUtf16 (Mem.slice s.ram a.toNat b.toNat)], pc := s.pc + 1, bt := false } :=
  (runHandler_ok (printHandler_eq_ok.2 ⟨h, rfl⟩)).trans (congrArg Host.Outcome.next (advancePc_of_not_bt rfl))

end Print

/-! ## What a cycle appends to OUT (R106) -/

namespace HandlerEffect

variable {s u : State}

theorem out_of_print {a b : Word} (h : HandlerEffect (.print a b) s u) :
    u.out = s.out ++ [decodeUtf16 (Mem.slice s.ram a.toNat b.toNat)] := by
  obtain ⟨hi, -⟩ | ⟨hi, -⟩ | ⟨_, _, hi, -⟩ | ⟨_, _, hi, -, rfl⟩ | ⟨_, hi | ⟨hi, -⟩, -⟩ | ⟨hi | ⟨_, hi, -⟩, -⟩ := h
  case inr.inl => simp [Instr.opcode] at hi
  all_goals cases hi
  rfl

theorem out_of_not_print {i : Instr} (h : HandlerEffect i s u) (hi : ∀ a b, i ≠ .print a b) : u.out = s.out := by
  refine h.writes.out.resolve_right fun ⟨ho, _⟩ => ?_
  cases i with
  | print a b => exact hi a b rfl
  | _ => cases ho

end HandlerEffect

theorem emitted_of_not_print {s : State} (hd : ∀ a b, decode s.cfg.opmap (s.slotAt s.pc) ≠ .ok (.print a b)) :
    emitted s = [] := by
  rw [emitted]
  split
  · next hp => exact absurd hp (hd _ _)
  · rfl

section Emitted

variable {s t : State} (h : step s = .next t)

include h

theorem emitted_of_print {a b : Word} (hd : decode s.cfg.opmap (s.slotAt s.pc) = .ok (.print a b))
    (ht : t.status = .running) : emitted s = [decodeUtf16 (Mem.slice s.ram a.toNat b.toNat)] := by
  simp [emitted, h, hd, ht]

theorem emitted_of_not_running (ht : t.status ≠ .running) : emitted s = [] := by
  rw [emitted, h]
  split
  · next heq _ =>
    cases heq
    exact if_neg ht
  · rfl

/-- A cycle appends to OUT what it emits. -/
theorem step_out : t.out = s.out ++ emitted s := by
  cases hst : t.status with
  | stopped e =>
    rw [emitted_of_not_running h (by simp [hst]), failingCycleCommitsNothing s t e h hst]
    exact (List.append_nil _).symm
  | running =>
    obtain ⟨i, u, hf, rfl, hu⟩ := step_effect_of_running h hst
    obtain ⟨-, -, hd⟩ := fetch_eq_ok.1 hf
    rw [advancePc_out]
    by_cases hi : ∃ a b, i = .print a b
    · obtain ⟨a, b, rfl⟩ := hi
      rw [emitted_of_print h hd hst, hu.out_of_print]
    · have hi : ∀ a b, i ≠ .print a b := fun a b he => hi ⟨a, b, he⟩
      rw [emitted_of_not_print (by simpa [hd] using hi), hu.out_of_not_print hi, List.append_nil]

end Emitted

/-- A run of `n + 1` cycles that gives a state is a first cycle and a run of `n` cycles. -/
theorem exists_step_of_run_succ {n : Nat} {s u : State} (h : Sys2Proof.core.run (n + 1) s = .next u) :
    ∃ t, step s = .next t ∧ Sys2Proof.core.run n t = .next u := by
  cases hs : step s with
  | next t => exact ⟨t, rfl, (run_succ_of_next n hs).symm.trans h⟩
  | fault r => cases (run_succ_of_fault n hs).symm.trans h
  | refused r => exact absurd hs (step_not_refused s r)

theorem emittedBy_succ {n : Nat} {s t : State} (h : step s = .next t) :
    emittedBy (n + 1) s = emitted s ++ emittedBy n t := by
  rw [emittedBy, h]

/-- A run appends to OUT what its cycles emit, in their order. -/
theorem run_out {n : Nat} {s t : State} (h : Sys2Proof.core.run n s = .next t) : t.out = s.out ++ emittedBy n s := by
  induction n generalizing s with
  | zero => cases h; exact (List.append_nil _).symm
  | succ n ih =>
    obtain ⟨u, hs, hu⟩ := exists_step_of_run_succ h
    rw [ih hu, step_out hs, emittedBy_succ hs, List.append_assoc]

/-! ## The obligations of 45_io_print.md -/

/-- Settles O24: a cycle appends what it emits, which is a text only where a PRINT succeeds; a run is its cycles. -/
theorem onlySuccessfulPrintEmits : Obligations.OnlySuccessfulPrintEmits := by
  refine ⟨fun s t h => ⟨fun a b hd ht => ?print, fun ht => ?stopped, fun hd => ?other⟩, fun n s t => run_out⟩
  case print => rw [step_out h, emitted_of_print h hd ht]
  case stopped => rw [step_out h, emitted_of_not_running h ht, List.append_nil]
  case other => rw [step_out h, emitted_of_not_print hd, List.append_nil]

/-- Settles O53: the words read are the RAM words of the range, and the range check alone can fail. -/
theorem printEmitsTheDecodedRange : Obligations.PrintEmitsTheDecodedRange := by
  refine ⟨spells_of_ofTriplet fun _ _ _ => rfl, fun s a b => ⟨fun h => ?result, fun h => ?range⟩⟩
  case result => exact ⟨_, Mem.length_slice s.ram a.toNat b.toNat, Mem.getElem_slice s.ram _ _, exec_print_ok h⟩
  case range => exact runHandler_error (printHandler_error (s := s.setBt false) h)

/-- Settles O55: the loop begins at position 0 with one round per word. -/
theorem utf16DecodingIsTheLoop : Obligations.Utf16DecodingIsTheLoop :=
  fun u => (utf16Loop_append [] u le_rfl).symm

/-- Settles O56: each scalar is made of one word or of two, and none is a surrogate. -/
theorem utf16DecodingLengthAndScalars : Obligations.Utf16DecodingLengthAndScalars :=
  fun u => and_assoc.1 ⟨length_decodeUtf16_bounds u, isScalar_of_mem_decodeUtf16⟩

/-- Settles O54: the two words are read in order, and neither is a surrogate. -/
theorem printHiEmitsHi : Obligations.PrintHiEmitsHi := by
  intro s a ha h0 h1
  have hslice : Mem.slice s.ram a.toNat (2 : Word).toNat = [0x48, 0x69] := by
    simp [Mem.slice, h0, h1]
  have htext : decodeUtf16 [0x48, 0x69] = [0x48, 0x69] := by decide
  rw [exec_print_ok (b := 2) ha, hslice, htext]

end Sys2Proof.Machine

/-! # Proofs for 46_unimplemented.md: the opcodes without a handler -/

namespace Sys2Proof.Machine

open Sys2Proof.Claims

/-- The rule of R109 for any opcode without a handler: since its instruction takes no operand, every triplet decodes to it,
so a whole slot is fetched as it and only dispatch fails. -/
theorem unimplementedRule_of_ofTriplet {i : Instr} (hi : isUnimplemented i.opcode)
    (h : ∀ a b c, Instr.ofTriplet i.opcode a b c = i) : UnimplementedRule i.opcode i := by
  refine ⟨spells_of_ofTriplet h, exec_of_isUnimplemented hi, fun s hrun hpc htrip hop => ?_⟩
  have hd : decode s.cfg.opmap (s.slotAt s.pc) = .ok i :=
    decode_eq_ok_iff_symOf.2 ⟨numericToSymbolic_eq_ok.1 hop, h _ _ _⟩
  rw [step_of_fetch hrun (fetch_eq_ok.2 ⟨hpc, htrip, hd⟩), exec_of_isUnimplemented hi]

/-! ## The obligation of 46_unimplemented.md -/

/-- Settles O57: each of the five opcodes is without a handler and ignores its triplet. -/
theorem unimplementedOpcodesFail : Obligations.UnimplementedOpcodesFail := by
  refine ⟨?hpush, ?hpop, ?callr, ?ret, ?halt⟩
  case hpush => exact unimplementedRule_of_ofTriplet (i := .hpush) (.inl rfl) fun _ _ _ => rfl
  case hpop => exact unimplementedRule_of_ofTriplet (i := .hpop) (.inr (.inl rfl)) fun _ _ _ => rfl
  case callr => exact unimplementedRule_of_ofTriplet (i := .callr) (.inr (.inr (.inl rfl))) fun _ _ _ => rfl
  case ret => exact unimplementedRule_of_ofTriplet (i := .ret) (.inr (.inr (.inr (.inl rfl)))) fun _ _ _ => rfl
  case halt => exact unimplementedRule_of_ofTriplet (i := .halt) (.inr (.inr (.inr (.inr rfl)))) fun _ _ _ => rfl

end Sys2Proof.Machine

/-! # Proofs for 70_reset_and_hazards.md: construction, the loaded image, and the parameters -/

namespace Sys2Proof.Machine

/-! ## Placing one slot -/

/-- A placed slot is read back whole, whatever the stores held (R143). -/
theorem slotAt_placeSlot (s : State) (i : Nat) (sl : Slot) : (s.placeSlot i sl).slotAt i = sl := by
  simp [State.placeSlot, State.slotAt, Mem.read_load]

/-- A slot placed at `pc` is fetched as what it decodes to, since the placing makes both stores long enough. -/
theorem fetch_placeSlot_of_decode {s : State} {sl : Slot} {i : Instr} (h : decode s.cfg.opmap sl = .ok i) :
    fetch (s.placeSlot s.pc sl) = .ok i := by
  have hpc : s.pc < (s.placeSlot s.pc sl).cfg.istoreLen := Nat.lt_of_succ_le (le_max_right ..)
  have htrip : 3 * s.pc + 3 ≤ (s.placeSlot s.pc sl).cfg.ostoreLen := le_max_right ..
  have hslot : (s.placeSlot s.pc sl).slotAt (s.placeSlot s.pc sl).pc = sl := slotAt_placeSlot s s.pc sl
  exact fetch_eq_ok.2 ⟨hpc, htrip, by rw [hslot]; exact h⟩

/-! ## Construction -/

theorem construct_of_build_error {es : List (String × Nat)} {e : ConfigError} (h : build es = .error e) (sz : Sizes)
    (imageI imageO : List Word) : construct es sz imageI imageO = .error e := by
  rw [construct, h]

theorem construct_of_build {es : List (String × Nat)} {m : OpMap} (h : build es = .ok m) (sz : Sizes)
    (imageI imageO : List Word) :
    construct es sz imageI imageO = .ok ((State.fresh { sz with opmap := m }).loadImages imageI imageO) := by
  rw [construct, h]

/-- A store holds its image from index 0 and 0 beyond it (R24, R143). -/
theorem Mem.read_load_nil (ws : List Word) (i : Nat) : Mem.read (Mem.load [] 0 ws) i = ws.getD i 0 := by
  rw [Mem.read_load, Nat.sub_zero]
  split
  · rfl
  · next hi => rw [List.getD_eq_default _ _ (by omega)]; rfl

/-- Before the load every region is empty, `pc` is 0 and nothing has been emitted. -/
theorem fresh_inv {cfg : Config} (h : cfg.opmap.valid) : (State.fresh cfg).Inv where
  dictionary := h
  regs := Mem.fits_nil _
  ram := Mem.fits_nil _
  istore := Mem.fits_nil _
  ostore := Mem.fits_nil _
  dstack := Mem.fits_nil _
  cstack := Mem.fits_nil _
  pcBound := Nat.zero_le _
  text := nofun

/-- Loading writes the two stores alone, and images no longer than their stores fit them. -/
theorem State.Inv.loadImages {s : State} (h : s.Inv) {imageI imageO : List Word}
    (hI : imageI.length ≤ s.cfg.istoreLen) (hO : imageO.length ≤ s.cfg.ostoreLen) :
    (s.loadImages imageI imageO).Inv :=
  { h with
    istore := Mem.load_fits imageI (Mem.fits_nil _) ((Nat.zero_add _).trans_le hI)
    ostore := Mem.load_fits imageO (Mem.fits_nil _) ((Nat.zero_add _).trans_le hO) }

/-! ## The obligations of 70_reset_and_hazards.md -/

/-- Settles O12: the image fills the slot at `pc`, the fetch reads it back, and the machine has been set running. -/
theorem loadedImageIsTheNextInstruction : Obligations.LoadedImageIsTheNextInstruction := by
  intro s image i himage hd
  have hfetch : fetch (s.withFetchWord 64 image) = .ok i := by
    rw [State.withFetchWord, Nat.mod_eq_of_lt himage]
    exact fetch_placeSlot_of_decode hd
  exact step_of_fetch rfl hfetch

/-- Settles O21: the parameters belong to what a step leaves alone. -/
theorem dictionaryAndSizesNeverChange : Obligations.DictionaryAndSizesNeverChange :=
  fun _ _ h => (step_sameRest h).cfg

/-- Settles O29: only the two stores differ from a fresh machine, whose dictionary is valid because it was built. -/
theorem constructionLoadsAndResets : Obligations.ConstructionLoadsAndResets := by
  refine fun es sz imageI imageO =>
    ⟨fun e h => construct_of_build_error h sz imageI imageO, fun m h hI hO => ?_⟩
  have hinv : (State.fresh { sz with opmap := m }).Inv := fresh_inv (build_eq_ok_iff.1 h).1
  exact ⟨_, construct_of_build h sz imageI imageO, hinv.loadImages hI hO, rfl, Mem.read_load_nil imageI,
    Mem.read_load_nil imageO, fun _ => ⟨rfl, rfl, rfl, rfl⟩, rfl, rfl, rfl, rfl, rfl, rfl, rfl⟩

end Sys2Proof.Machine

/-! # Proofs for 10_state.md: the reset values -/

namespace Sys2Proof.Machine

/-- A region with nothing listed reads 0 everywhere (R24, decisions D10 and D26). -/
theorem Mem.read_nil (i : Nat) : Mem.read [] i = 0 := rfl

/-- Settles O28: at reset nothing is listed in the register file or in any of the five regions. -/
theorem resetValues : Obligations.ResetValues :=
  ⟨Mem.read_nil, rfl, rfl, rfl, rfl, rfl,
    fun i => ⟨Mem.read_nil i, Mem.read_nil i, Mem.read_nil i, Mem.read_nil i, Mem.read_nil i⟩, rfl, rfl⟩

end Sys2Proof.Machine
